-- ==== Sys2Proof/Word.lean ====
section
/-! DEFINITION. The two data widths of the sha1_hab core (00_scope.md R7, R10): the 32-bit unsigned word of the
schedule, the working registers and the accumulator, and the byte of the message, the padded message and the digest.
The arithmetic on them stands in Machine/Ops.lean. -/

namespace Sys2Proof

/-- A 32-bit unsigned word (R7 `WORD_BITS`, R10: there are no signed quantities anywhere). -/
abbrev Word := BitVec 32

/-- A byte (R10). -/
abbrev Byte := BitVec 8

end Sys2Proof
end

