-- ==== Sys2Proof/Syntax.lean ====
section
/-! DEFINITION. The instructions of the core in the sense of 00_scope.md R9: eleven micro-operations of the sequencer
and six host transactions, one constructor for each row of spec/opcode_table.json. Beside them the raw words they are
decoded from: the 10-bit control word (format SEQ, 30_encoding.md R47) and the host transaction tuple (format HOST,
R51). -/

namespace Sys2Proof

/-- A micro-operation or a host transaction, with the operands its row uses (R59). `LDW`, `EXP` and `RND.*` carry the
7-bit index field of the control word (R47); a host transaction carries those of `addr` and `wdata` that its port uses
(R51). -/
inductive Instr where
  | idle
  | init
  | ldw (i : BitVec 7)
  | exp (i : BitVec 7)
  | binit
  | rndCh (t : BitVec 7)
  | rndPara (t : BitVec 7)
  | rndMaj (t : BitVec 7)
  | rndParb (t : BitVec 7)
  | acc
  | out
  | hRdstatus
  | hWrctrl (wdata : BitVec 64)
  | hRdlen
  | hWrlen (wdata : BitVec 64)
  | hWrmsg (addr wdata : BitVec 64)
  | hRddigest (addr : BitVec 64)
  deriving DecidableEq, Repr

/-- The micro-operation class named by bits 9:7 of the control word (R47). -/
inductive Phase where
  | idle | init | ldw | exp | binit | rnd | acc | out
  deriving DecidableEq, Repr

/-- One host transaction `(we, hsel, addr, wdata)` (R51); `rdata` is what it returns, not part of the request. -/
structure HostTxn where
  we : Bool
  hsel : BitVec 3
  addr : BitVec 64
  wdata : BitVec 64
  deriving DecidableEq, Repr

/-- What an instruction is decoded from: a control word of the sequencer or a host transaction (R9, R58). -/
inductive Raw where
  | seq (word : BitVec 10)
  | host (txn : HostTxn)
  deriving DecidableEq, Repr

end Sys2Proof
end

