-- ==== Sys2Proof/WellFormed.lean ====
section
/-! DEFINITION. Which terms of `Instr` stand for an instruction: the index ranges of 30_encoding.md R47, R48 and R49.
Every host transaction is well formed, whatever its operands (R51). -/

namespace Sys2Proof

/-- The index of a micro-operation lies in its row's range (R47, R49). -/
def Instr.wf : Instr → Bool
  | .idle => true
  | .init => true
  | .ldw i => decide (i.toNat ≤ 15)
  | .exp i => decide (16 ≤ i.toNat ∧ i.toNat ≤ 79)
  | .binit => true
  | .rndCh t => decide (t.toNat ≤ 19)
  | .rndPara t => decide (20 ≤ t.toNat ∧ t.toNat ≤ 39)
  | .rndMaj t => decide (40 ≤ t.toNat ∧ t.toNat ≤ 59)
  | .rndParb t => decide (60 ≤ t.toNat ∧ t.toNat ≤ 79)
  | .acc => true
  | .out => true
  | .hRdstatus => true
  | .hWrctrl _ => true
  | .hRdlen => true
  | .hWrlen _ => true
  | .hWrmsg _ _ => true
  | .hRddigest _ => true

end Sys2Proof
end

