-- ==== Sys2Proof/Decode.lean ====
section
/-! DEFINITION. The decoder, total on every control word and every host transaction, with the reserved words rejected
by name (30_encoding.md R48, R49, R51, R57), and the encoder written from the same tables. Decoding a control word here
is the case `BUSY = 1` of R48's `decode(seq, BUSY)`; the test of `BUSY` stands in Machine/Sequencer.lean, and the verdict
on `(IDLE, 0)` while busy in the meaning of `IDLE`. -/

namespace Sys2Proof

/-- Why a raw word stands for no instruction. -/
inductive Reject where
  /-- `(RND, idx)` with `idx ≥ 80`: `Reserved(1)` of R48. -/
  | roundRange
  /-- Any other reserved control word: `Reserved(2)` of R48. -/
  | seqReserved
  /-- A reserved host transaction (R121). -/
  | hostReserved
  deriving DecidableEq, Repr

/-- The phase codes (R47). -/
def Phase.code : Phase → BitVec 3
  | .idle => 0b000
  | .init => 0b001
  | .ldw => 0b010
  | .exp => 0b011
  | .binit => 0b100
  | .rnd => 0b101
  | .acc => 0b110
  | .out => 0b111

/-- The phase a 3-bit code names; all eight codes are used (R47). -/
def phaseOfCode (c : BitVec 3) : Phase :=
  if c = 0b000 then .idle
  else if c = 0b001 then .init
  else if c = 0b010 then .ldw
  else if c = 0b011 then .exp
  else if c = 0b100 then .binit
  else if c = 0b101 then .rnd
  else if c = 0b110 then .acc
  else .out

/-- The control word `{phase, idx}`, value `phase * 128 + idx` (R23, R47). -/
def seqWord (p : Phase) (idx : BitVec 7) : BitVec 10 := p.code ++ idx

/-- Bits 9:7 of a control word. -/
def seqPhase (q : BitVec 10) : Phase := phaseOfCode (q.extractLsb' 7 3)

/-- Bits 6:0 of a control word. -/
def seqIdx (q : BitVec 10) : BitVec 7 := q.extractLsb' 0 7

/-- The variant of round `t`, by comparing `t` with 20, 40, 60 and 80 (R49). -/
def decodeRound (t : BitVec 7) : Except Reject Instr :=
  if t.toNat < 20 then .ok (.rndCh t)
  else if t.toNat < 40 then .ok (.rndPara t)
  else if t.toNat < 60 then .ok (.rndMaj t)
  else if t.toNat < 80 then .ok (.rndParb t)
  else .error .roundRange

/-- A micro-operation whose index field must be 0 (R47). -/
def decodePlain (idx : BitVec 7) (i : Instr) : Except Reject Instr :=
  if idx = 0 then .ok i else .error .seqReserved

/-- The decode function of R48 on the control word of a busy core, except that `(IDLE, 0)` is given as `IDLE`. -/
def decodeSeq (q : BitVec 10) : Except Reject Instr :=
  match seqPhase q with
  | .idle => decodePlain (seqIdx q) .idle
  | .init => decodePlain (seqIdx q) .init
  | .ldw => if (seqIdx q).toNat ≤ 15 then .ok (.ldw (seqIdx q)) else .error .seqReserved
  | .exp =>
    if 16 ≤ (seqIdx q).toNat ∧ (seqIdx q).toNat ≤ 79 then .ok (.exp (seqIdx q)) else .error .seqReserved
  | .binit => decodePlain (seqIdx q) .binit
  | .rnd => decodeRound (seqIdx q)
  | .acc => decodePlain (seqIdx q) .acc
  | .out => decodePlain (seqIdx q) .out

/-- The transaction a `(we, hsel)` pair selects (R51); the operands a port ignores are dropped. -/
def decodeHost (t : HostTxn) : Except Reject Instr :=
  if t.we = false ∧ t.hsel = 0 then .ok .hRdstatus
  else if t.we = true ∧ t.hsel = 1 then .ok (.hWrctrl t.wdata)
  else if t.we = false ∧ t.hsel = 2 then .ok .hRdlen
  else if t.we = true ∧ t.hsel = 2 then .ok (.hWrlen t.wdata)
  else if t.we = true ∧ t.hsel = 3 then .ok (.hWrmsg t.addr t.wdata)
  else if t.we = false ∧ t.hsel = 4 then .ok (.hRddigest t.addr)
  else .error .hostReserved

/-- The decoder on any raw word. -/
def decode : Raw → Except Reject Instr
  | .seq q => decodeSeq q
  | .host t => decodeHost t

/-- The raw word of an instruction (R47, R51). Operands a host port ignores are sent as 0. -/
def encode : Instr → Raw
  | .idle => .seq (seqWord .idle 0)
  | .init => .seq (seqWord .init 0)
  | .ldw i => .seq (seqWord .ldw i)
  | .exp i => .seq (seqWord .exp i)
  | .binit => .seq (seqWord .binit 0)
  | .rndCh t => .seq (seqWord .rnd t)
  | .rndPara t => .seq (seqWord .rnd t)
  | .rndMaj t => .seq (seqWord .rnd t)
  | .rndParb t => .seq (seqWord .rnd t)
  | .acc => .seq (seqWord .acc 0)
  | .out => .seq (seqWord .out 0)
  | .hRdstatus => .host ⟨false, 0, 0, 0⟩
  | .hWrctrl v => .host ⟨true, 1, 0, v⟩
  | .hRdlen => .host ⟨false, 2, 0, 0⟩
  | .hWrlen v => .host ⟨true, 2, 0, v⟩
  | .hWrmsg a v => .host ⟨true, 3, a, v⟩
  | .hRddigest a => .host ⟨false, 4, a, 0⟩

/-- The raw word behind a number in the numbering of spec/opcode_table.json. A SEQ row has 10 bits (in whole bytes 16),
a HOST row 4 bits (in whole bytes 8), so the bit count says the format. The spec lays no host transaction out in bits
beyond the 4-bit code; DESIGN CHOICE (log 4): `addr` is taken from bits 71:8 and `wdata` from bits 135:72. A number with
a bit outside its format is no word. -/
def rawOfTable (nbits w : Nat) : Option Raw :=
  if 8 < nbits ∧ nbits ≤ 16 then
    if w < 2 ^ 10 then some (.seq (BitVec.ofNat 10 w)) else none
  else if w % 2 ^ 8 < 2 ^ 4 ∧ w < 2 ^ 136 then
    some (.host ⟨w.testBit 3, BitVec.ofNat 3 w, BitVec.ofNat 64 (w / 2 ^ 8), BitVec.ofNat 64 (w / 2 ^ 72)⟩)
  else none

/-- The instruction the decoder reads from a number in the opcode table's numbering; `none` where it refuses. -/
def decodeTableWord (nbits w : Nat) : Option Instr :=
  match rawOfTable nbits w with
  | none => none
  | some r =>
    match decode r with
    | .ok i => some i
    | .error _ => none

end Sys2Proof
end

