-- ==== Sys2Proof/Config.lean ====
section
/-! DEFINITION. What an implementation of the core fixes and what the spec leaves open: the parameter `MSG_CAP`
(00_scope.md R8, decision D4 OPEN) and the two free values. None of the three has a body: no proof can see a value.
The fixed parameter `L_MAX` (R7) stands here too. -/

namespace Sys2Proof.Config

/-- `L_MAX = 2^61 - 1`, the largest byte length whose bit length fits in 64 bits (R7). -/
def lMax : Nat := 2 ^ 61 - 1

/-- `MSG_CAP`, the capacity of the message memory of the machine `State.reset` describes (R8, D4: OPEN). DESIGN CHOICE
(log 1): uninterpreted; every operation reads the capacity from the state, so a claim holds for every capacity. -/
opaque msgCap : Nat

/-- The content of a byte of `MSG` that the host has not written since reset number `resets` (R33, R149, U3: any value,
stable until the next reset by D25). A free value (log 2). -/
opaque freeMsgByte : (resets addr : Nat) → Byte

/-- The byte `H.RDDIGEST n` returns while `DONE = 0` (R29, R120, U6: any value), one for each reset and each start
taken since it, so that repeated reads agree (R40). A free value (log 3). -/
opaque freeDigestByte : (resets starts n : Nat) → Byte

end Sys2Proof.Config
end

