-- ==== Sys2Proof/Machine/State.lean ====
section
/-! DEFINITION. The state of one core instance (10_state.md R17) as plain data, the queue of inputs that says which
agent moves next (45_sequencer_and_host.md R98), the reasons a step can stop, and the state after reset (R33, R141). -/

namespace Sys2Proof.Machine

/-- The working registers `a..e` (R18). -/
structure Working where
  a : Word
  b : Word
  c : Word
  d : Word
  e : Word
  deriving DecidableEq, Repr

/-- The accumulator `h[0..4]` (R19): five 32-bit registers, not one 160-bit number (R87). -/
structure Acc where
  h0 : Word
  h1 : Word
  h2 : Word
  h3 : Word
  h4 : Word
  deriving DecidableEq, Repr

/-- The written bytes of the message memory `MSG` (R27), addresses strictly rising. An unlisted address holds no value
of its own; what the core reads there is `Config.freeMsgByte` (log 2). -/
abbrev Memory := List Host.Cell

/-- One turn of one agent (R98): the core is given its step, the host performs one transaction, or reset is asserted
(R141). -/
inductive Input where
  | core
  | host (t : HostTxn)
  | reset
  deriving DecidableEq, Repr

/-- The causes of a fault of the core (R125). -/
inductive FaultCode where
  /-- Code 1 `FC_ROUND_RANGE` (R126). -/
  | roundRange
  /-- Code 2 `FC_SEQ_RESERVED` (R127). -/
  | seqReserved
  /-- Code 3 `FC_PAD_RANGE` (R128). -/
  | padRange
  deriving DecidableEq, Repr

/-- The whole machine. The fields up to `digest` are the state of R17; `msgCap` is the parameter of R8, never changed by
a step; `inbox` and `rdata` are the two sides of the host ports (R51, R98); `resets` and `starts` are the model's own
counters that index the free values (log 2, log 3). -/
structure State where
  /-- `a, b, c, d, e` (R18). -/
  regs : Working
  /-- `h[0..4]` (R19). -/
  h : Acc
  /-- `w[0..79]`, the schedule buffer (R20). -/
  w : Vector Word 80
  /-- `seq`, the sequencer register `{phase[2:0], idx[6:0]}` (R23). -/
  seq : BitVec 10
  /-- `blk`, the index of the block in progress, a natural number (R24, D26). -/
  blk : Nat
  /-- `BUSY` (R25). -/
  busy : Bool
  /-- `DONE` (R25). -/
  done : Bool
  /-- `FAULT` (R25). -/
  fault : Bool
  /-- `LENERR` (R25). -/
  lenerr : Bool
  /-- `FCODE[3:0]` (R25). -/
  fcode : BitVec 4
  /-- `LEN`, the message length in bytes (R26). -/
  len : BitVec 64
  /-- `MSG`, the message memory (R27). -/
  msg : Memory
  /-- `DIGEST[0..19]` (R29). -/
  digest : Vector Byte 20
  /-- `MSG_CAP`, the capacity of `MSG` in bytes (R8). -/
  msgCap : Nat
  /-- The turns to come, oldest first; when it is empty the core is given every turn. The model's own (log 5). -/
  inbox : List Input
  /-- `rdata`, the data returned by the last host read (R51). -/
  rdata : BitVec 64
  /-- How many resets have been asserted. The model's own (log 2). -/
  resets : Nat
  /-- How many starts have been taken since the last reset. The model's own (log 3). -/
  starts : Nat
  deriving DecidableEq, Repr

/-- Why the machine stops. -/
inductive Fault where
  /-- Raised by `step` alone, when `FAULT = 1` and no input is left: the core has no step (R106, R130; U9 `stuck`) and
  nothing else can move. Safe: no state follows. -/
  | halted
  deriving DecidableEq, Repr

/-- Why an instruction has no meaning. -/
inductive Refusal where
  /-- Raised by `exec`'s arm of an instruction that has no meaning yet. No arm does. Safe. -/
  | notModelled (mnemonic : String)
  /-- Raised by a meaning applied to a term that is not well formed (`Instr.wf`): no control word stands for it, and the
  decoder never gives it, so no step ends so. Safe. -/
  | illFormed
  deriving DecidableEq, Repr

/-- The state after reset of a core whose message memory has `cap` bytes (R33, R141). `a..e`, `h`, `w` and `DIGEST` are
unspecified there: DESIGN CHOICE (log 6), zero. `MSG` lists nothing. `rdata` and the model's own fields: DESIGN CHOICE
(log 7). -/
def State.launch (cap : Nat) : State where
  regs := ⟨0, 0, 0, 0, 0⟩
  h := ⟨0, 0, 0, 0, 0⟩
  w := Vector.replicate 80 0
  seq := 0
  blk := 0
  busy := false
  done := false
  fault := false
  lenerr := false
  fcode := 0
  len := 0
  msg := []
  digest := Vector.replicate 20 0
  msgCap := cap
  inbox := []
  rdata := 0
  resets := 0
  starts := 0

/-- The machine right after reset, with the uninterpreted capacity of Config (log 1). -/
def State.reset : State := State.launch Config.msgCap

end Sys2Proof.Machine
end

