-- ==== Sys2Proof/Machine/Ops.lean ====
section
/-! DEFINITION. The named operations every meaning is written over: the primitives of 00_scope.md R11 to R14, the
message memory (10_state.md R27), the updates of the registers, the fault entry (60_exceptions.md R129; there is no
return from it, R130) and reset (70_reset_and_hazards.md R141). -/

namespace Sys2Proof.Machine

/-- `rotl32(x, n)` for `0 < n < 32` (R12): the bits shifted out at the top re-enter at the bottom. -/
def rotl32 (x : Word) (n : Nat) : Word := (x <<< n) ||| (x >>> (32 - n))

/-- `add32(x, y)`: addition modulo `2^32`, with no flag and no trap (R13). -/
def add32 (x y : Word) : Word := x + y

/-- `be32`: four bytes to a word, most significant first (R14, R37). -/
def be32 (b0 b1 b2 b3 : Byte) : Word := b0 ++ b1 ++ b2 ++ b3

/-- `ser32(x)`: a word to four bytes, most significant first (R14). -/
def ser32 (x : Word) : Vector Byte 4 :=
  #v[x.extractLsb' 24 8, x.extractLsb' 16 8, x.extractLsb' 8 8, x.extractLsb' 0 8]

/-- Byte `q` of `ser64(v)`, `q < 8`: bits `63 - 8q` down to `56 - 8q` of the natural number `v` (R14, R53). -/
def ser64Byte (v q : Nat) : Byte := BitVec.ofNat 8 (v / 2 ^ (56 - 8 * q))

/-- The stored value of an address, `none` where nothing was written. -/
def Memory.get : Memory → Nat → Option Byte
  | [], _ => none
  | (a, v) :: m, k => if k = a then some v else Memory.get m k

/-- Store a byte, keeping the addresses strictly rising. -/
def Memory.set : Memory → Nat → Byte → Memory
  | [], k, v => [(k, v)]
  | (a, u) :: m, k, v =>
    if k < a then (k, v) :: (a, u) :: m
    else if k = a then (k, v) :: m
    else (a, u) :: Memory.set m k v

/-- Every address of the list is above `lo`, and the addresses rise strictly. -/
def Memory.risingFrom : Nat → Memory → Bool
  | _, [] => true
  | lo, (a, _) :: m => decide (lo ≤ a) && Memory.risingFrom (a + 1) m

/-- The canonical form: addresses strictly rising. An unlisted address has no value of its own, so no listed byte can
repeat it. -/
def Memory.wf (m : Memory) : Bool := Memory.risingFrom 0 m

/-- Every listed address exists (R27: the addresses of `MSG` are `0 .. MSG_CAP-1`). -/
def Memory.inside (cap : Nat) (m : Memory) : Bool := m.all fun c => decide (c.1 < cap)

/-- `MemRead(MSG, addr, 1)` (R11): the stored byte, or the free value of a byte not written since reset (log 2). At
`addr ≥ MSG_CAP`, which only a forced busy state with `MSG_CAP < LEN` reads, there is no byte and the spec gives no read check
(20_memory.md R42). DESIGN CHOICE (log 16): the read gives the free value of that address there too. -/
def State.readMsg (s : State) (addr : Nat) : Byte :=
  (Memory.get s.msg addr).getD (Config.freeMsgByte s.resets addr)

/-- `MemWrite(MSG, addr, 1, v)` (R11). -/
def State.writeMsg (s : State) (addr : Nat) (v : Byte) : State := { s with msg := Memory.set s.msg addr v }

/-- `w[i]` (R11). Every meaning reads indices below 80 only. -/
def State.readW (s : State) (i : Nat) : Word := s.w.getD i 0

/-- `w[i] <- v`. Every meaning writes indices below 80 only. -/
def State.setW (s : State) (i : Nat) (v : Word) : State := { s with w := s.w.setIfInBounds i v }

/-- `a..e <- v`, all five together (R18). -/
def State.setRegs (s : State) (v : Working) : State := { s with regs := v }

/-- `h[0..4] <- v`, all five together (R19). -/
def State.setAcc (s : State) (v : Acc) : State := { s with h := v }

/-- `seq <- (phase, idx)` (R11). -/
def State.setSeq (s : State) (p : Phase) (idx : BitVec 7) : State := { s with seq := seqWord p idx }

/-- `blk <- n`. -/
def State.setBlk (s : State) (n : Nat) : State := { s with blk := n }

/-- `LEN <- v`. -/
def State.setLen (s : State) (v : BitVec 64) : State := { s with len := v }

/-- `rdata = v` (R51). -/
def State.setRdata (s : State) (v : BitVec 64) : State := { s with rdata := v }

/-- `DIGEST <- v; DONE <- 1; BUSY <- 0`, together (R96). -/
def State.publish (s : State) (v : Vector Byte 20) : State := { s with digest := v, done := true, busy := false }

/-- `DONE <- 0; LENERR <- 0` (R103). The bytes of `DIGEST` stay; what a read of them returns becomes a new free value
(log 3). -/
def State.clearResult (s : State) : State :=
  { s with done := false, lenerr := false, starts := s.starts + 1 }

/-- `BUSY <- 1; seq <- (INIT, 0)` (R104). -/
def State.beginRun (s : State) : State := { s with busy := true, seq := seqWord .init 0 }

/-- `LENERR <- 1` (R105). -/
def State.markLenErr (s : State) : State := { s with lenerr := true }

/-- The turns that are left after the one in progress. -/
def State.setInbox (s : State) (q : List Input) : State := { s with inbox := q }

/-- The 4-bit cause code (R125). -/
def FaultCode.code : FaultCode → BitVec 4
  | .roundRange => 1
  | .seqReserved => 2
  | .padRange => 3

/-- `raise Fault(code)` (R129): `FAULT <- 1; FCODE <- code; BUSY <- 0`, and nothing else changes. -/
def raiseFault (c : FaultCode) (s : State) : State :=
  { s with fault := true, fcode := c.code, busy := false }

/-- The fault a rejected control word demands (R48: `Reserved(1)`, `Reserved(2)`). -/
def faultOfReject : Reject → FaultCode
  | .roundRange => .roundRange
  | .seqReserved => .seqReserved
  | .hostReserved => .seqReserved

/-- Reset (R141): the core's state becomes the reset state of R33, and `MSG` forgets its content. The capacity, the
turns to come and the data already returned to the host are outside the core and stay (log 7). -/
def applyReset (s : State) : State :=
  { State.launch s.msgCap with resets := s.resets + 1, inbox := s.inbox, rdata := s.rdata }

end Sys2Proof.Machine
end

