-- ==== Sys2Proof/Machine/Operands.lean ====
section
/-! DEFINITION. How each operand of a micro-operation or transaction is obtained (30_encoding.md R56), the hard-wired
constants (10_state.md R22, R31), and the successor control words of the looping phases (R107 to R111). -/

namespace Sys2Proof.Machine

/-- The initial accumulator value (R22). The spec marks the five values as general knowledge, with the source's three
digests as evidence (93 G1; log 8). -/
def iv : Acc := ⟨0x67452301, 0xEFCDAB89, 0x98BADCFE, 0x10325476, 0xC3D2E1F0⟩

/-- The first source byte of `LDW i`: `64 * blk + 4 * i`, in natural numbers (R56, R74, D26). -/
def ldwBase (s : State) (i : BitVec 7) : Nat := 64 * s.blk + 4 * i.toNat

/-- The xor of the four taps of `EXP i` (R56, R75); the indices are naturals and `i ≥ 16`. -/
def expTaps (s : State) (i : Nat) : Word :=
  s.readW (i - 3) ^^^ s.readW (i - 8) ^^^ s.readW (i - 14) ^^^ s.readW (i - 16)

/-- CH (R31, R83). -/
def chF (b c d : Word) : Word := (b &&& c) ||| (~~~b &&& d)

/-- PAR (R31, R84, R86). -/
def parF (b c d : Word) : Word := b ^^^ c ^^^ d

/-- MAJ (R31, R85). -/
def majF (b c d : Word) : Word := (b &&& c) ||| (b &&& d) ||| (c &&& d)

/-- The working registers after one round whose function value is `f` and whose constant is `k`, all five written
together from the old values (R81, R90). The sum of the five terms does not depend on their order (R13); the schedule word
stands last, so that no term of the kernel's ends in a large numeral added to a variable. -/
def roundWith (r : Working) (f k wt : Word) : Working :=
  ⟨add32 (add32 (add32 (add32 (rotl32 r.a 5) f) r.e) k) wt, r.a, rotl32 r.b 30, r.c, r.d⟩

/-- `START`, bit 0 of the data written to `CTRL`; bits 63:1 are ignored (R30, R102). -/
def startBit (wdata : BitVec 64) : Bool := wdata.getLsbD 0

/-- The byte a write to `MSG` stores: `wdata[7:0]` (R51, R119). -/
def msgData (wdata : BitVec 64) : Byte := wdata.setWidth 8

/-- `zext_64` of a byte. -/
def zext64 (v : Byte) : BitVec 64 := v.setWidth 64

/-- The successor of `LDW i` (R108). -/
def State.afterLdw (s : State) (i : BitVec 7) : State :=
  if i.toNat = 15 then s.setSeq .exp 16 else s.setSeq .ldw (i + 1)

/-- The successor of `EXP i` (R109). -/
def State.afterExp (s : State) (i : BitVec 7) : State :=
  if i.toNat = 79 then s.setSeq .binit 0 else s.setSeq .exp (i + 1)

end Sys2Proof.Machine
end

