-- ==== Sys2Proof/Machine/Padder.lean ====
section
/-! DEFINITION. The Padder (40_padder.md) and the Block Splitter (41_block_splitter.md): the lengths `P`, `Z`, `NBLK`,
the hardware form `PadByte` of the padded message, and the source's functions `Pad` and `Split` on byte lists. -/

namespace Sys2Proof.Machine

/-- `P(L)`, the smallest multiple of 64 with `P(L) ≥ L + 9` (R62). -/
def padLen (l : Nat) : Nat := 64 * ((l + 72) / 64)

/-- `Z(L)`, the number of zero bytes (R62). -/
def zeroCount (l : Nat) : Nat := padLen l - l - 9

/-- `NBLK(L)`, the number of blocks (R62). -/
def nblk (l : Nat) : Nat := padLen l / 64

/-- `PadByte(j)` (R65) for a message of `l` bytes whose byte `j` is `msg j`. `none` is the address `j ≥ P(L)`, where the
step that asked raises `Fault(3)` (R68). -/
def padByteOf (l : Nat) (msg : Nat → Byte) (j : Nat) : Option Byte :=
  if j < l then some (msg j)
  else if j = l then some 0x80
  else if j < padLen l - 8 then some 0x00
  else if j < padLen l then some (ser64Byte (8 * l) (j - (padLen l - 8)))
  else none

/-- `PadByte(j)` of the core: `L = LEN` and the bytes of `MSG` (R65). -/
def padByte (s : State) (j : Nat) : Option Byte := padByteOf s.len.toNat s.readMsg j

/-- `BlockByte(n, k) = PadByte(64 * n + k)` (R70). -/
def blockByte (s : State) (n k : Nat) : Option Byte := padByte s (64 * n + k)

/-- The word at `PAD` address `base`, big-endian (R74); `none` if one of the four bytes does not exist. -/
def padWord (s : State) (base : Nat) : Option Word :=
  match padByte s base, padByte s (base + 1), padByte s (base + 2), padByte s (base + 3) with
  | some b0, some b1, some b2, some b3 => some (be32 b0 b1 b2 b3)
  | _, _, _, _ => none

/-- The message `MSG[0 .. LEN-1]` (R27, R104). -/
def message (s : State) : List Byte := (List.range s.len.toNat).map s.readMsg

/-- `Pad(M)` (R63). -/
def pad (m : List Byte) : List Byte :=
  m ++ [0x80] ++ List.replicate (zeroCount m.length) 0x00 ++ (List.range 8).map (ser64Byte (8 * m.length))

/-- `Split(PM)`: the consecutive 64-byte blocks of a padded message (R70). -/
def split (pm : List Byte) : List (List Byte) :=
  (List.range (pm.length / 64)).map fun n => (pm.drop (64 * n)).take 64

end Sys2Proof.Machine
end

