-- ==== Sys2Proof/Machine/Compressor.lean ====
section
/-! DEFINITION. The Compressor (43_compressor.md): the micro-operations `INIT`, `BINIT`, the four variants of a round and
`ACC`. -/

namespace Sys2Proof.Machine

/-- `INIT` (R91, R107): `h <- IV; blk <- 0; seq <- (LDW, 0)`. -/
def execInit (s : State) : Host.Outcome State Fault Refusal :=
  .next (((s.setAcc iv).setBlk 0).setSeq .ldw 0)

/-- `BINIT` (R80, R110): `a..e <- h[0..4]; seq <- (RND, 0)`. -/
def execBinit (s : State) : Host.Outcome State Fault Refusal :=
  .next ((s.setRegs ⟨s.h.h0, s.h.h1, s.h.h2, s.h.h3, s.h.h4⟩).setSeq .rnd 0)

/-- `RND.CH t`, `0 ≤ t ≤ 19` (R83). -/
def execRndCh (t : BitVec 7) (s : State) : Host.Outcome State Fault Refusal :=
  if (Instr.rndCh t).wf then
    .next ((s.setRegs (roundWith s.regs (chF s.regs.b s.regs.c s.regs.d) 0x5A827999 (s.readW t.toNat))).setSeq
      .rnd (t + 1))
  else .refused .illFormed

/-- `RND.PARA t`, `20 ≤ t ≤ 39` (R84). -/
def execRndPara (t : BitVec 7) (s : State) : Host.Outcome State Fault Refusal :=
  if (Instr.rndPara t).wf then
    .next ((s.setRegs (roundWith s.regs (parF s.regs.b s.regs.c s.regs.d) 0x6ED9EBA1 (s.readW t.toNat))).setSeq
      .rnd (t + 1))
  else .refused .illFormed

/-- `RND.MAJ t`, `40 ≤ t ≤ 59` (R85). -/
def execRndMaj (t : BitVec 7) (s : State) : Host.Outcome State Fault Refusal :=
  if (Instr.rndMaj t).wf then
    .next ((s.setRegs (roundWith s.regs (majF s.regs.b s.regs.c s.regs.d) 0x8F1BBCDC (s.readW t.toNat))).setSeq
      .rnd (t + 1))
  else .refused .illFormed

/-- The working registers after `RND.PARB t` (R86). -/
def parbRegs (t : BitVec 7) (s : State) : Working :=
  roundWith s.regs (parF s.regs.b s.regs.c s.regs.d) 0xCA62C1D6 (s.readW t.toNat)

/-- `RND.PARB t`, `60 ≤ t ≤ 79` (R86): the successor of the last round is `ACC` (R111). -/
def execRndParb (t : BitVec 7) (s : State) : Host.Outcome State Fault Refusal :=
  if (Instr.rndParb t).wf then
    if t.toNat = 79 then .next ((s.setRegs (parbRegs t s)).setSeq .acc 0)
    else .next ((s.setRegs (parbRegs t s)).setSeq .rnd (t + 1))
  else .refused .illFormed

/-- The accumulator with the working registers added, each sum modulo `2^32` (R87). -/
def accumulate (h : Acc) (r : Working) : Acc :=
  ⟨add32 h.h0 r.a, add32 h.h1 r.b, add32 h.h2 r.c, add32 h.h3 r.d, add32 h.h4 r.e⟩

/-- `ACC` (R87, R112): add `a..e` into `h`, then the next block, or `OUT` after the last. -/
def execAcc (s : State) : Host.Outcome State Fault Refusal :=
  if s.blk + 1 = nblk s.len.toNat then .next ((s.setAcc (accumulate s.h s.regs)).setSeq .out 0)
  else .next (((s.setAcc (accumulate s.h s.regs)).setBlk (s.blk + 1)).setSeq .ldw 0)

end Sys2Proof.Machine
end

