-- ==== Sys2Proof/Machine/DigestAssembly.lean ====
section
/-! DEFINITION. Digest Assembly (44_digest_assembly.md): `Ser` and the micro-operation `OUT`, and the resting
micro-operation `IDLE` (45_sequencer_and_host.md R106). -/

namespace Sys2Proof.Machine

/-- `Ser(H)`: the five words, each as four bytes big-endian, in order (R95). -/
def ser (h : Acc) : Vector Byte 20 := ser32 h.h0 ++ ser32 h.h1 ++ ser32 h.h2 ++ ser32 h.h3 ++ ser32 h.h4

/-- `OUT` (R96, R114): `DIGEST <- Ser(h); DONE <- 1; BUSY <- 0; seq <- (IDLE, 0)`. -/
def execOut (s : State) : Host.Outcome State Fault Refusal := .next ((s.publish (ser s.h)).setSeq .idle 0)

/-- `IDLE` (R106): nothing happens; `(IDLE, 0)` in a busy core is reserved and faults with code 2 (R48, R127). -/
def execIdle (s : State) : Host.Outcome State Fault Refusal :=
  if s.busy then .next (raiseFault .seqReserved s) else .next s

end Sys2Proof.Machine
end

