-- ==== Sys2Proof/Machine/Expander.lean ====
section
/-! DEFINITION. The Schedule Expander (42_schedule_expander.md): the micro-operations `LDW` and `EXP`. -/

namespace Sys2Proof.Machine

/-- `LDW i` (R74): `w[i]` takes the word of the block at byte `4 * i`; an address outside `PAD` makes the whole step the
fault entry with code 3 (R68, R128). -/
def execLdw (i : BitVec 7) (s : State) : Host.Outcome State Fault Refusal :=
  if (Instr.ldw i).wf then
    match padWord s (ldwBase s i) with
    | some v => .next ((s.setW i.toNat v).afterLdw i)
    | none => .next (raiseFault .padRange s)
  else .refused .illFormed

/-- `EXP i` (R75): `w[i] <- rotl32(w[i-3] xor w[i-8] xor w[i-14] xor w[i-16], 1)`. -/
def execExp (i : BitVec 7) (s : State) : Host.Outcome State Fault Refusal :=
  if (Instr.exp i).wf then .next ((s.setW i.toNat (rotl32 (expTaps s i.toNat) 1)).afterExp i)
  else .refused .illFormed

end Sys2Proof.Machine
end

