-- ==== Sys2Proof/Machine/Flags.lean ====
section
/-! DEFINITION. The status flags (10_state.md R25): the status word (30_encoding.md R50), the lock
(45_sequencer_and_host.md R100), the length test of a start (R104, R105) and the start command itself (R103). No
micro-operation sets a flag by its arithmetic (R13, R25), so there is no flag computation beside these. -/

namespace Sys2Proof.Machine

/-- The 32-bit status word `{0, FCODE, LENERR, FAULT, DONE, BUSY}` (R50). -/
def statusWord (s : State) : BitVec 32 :=
  (0 : BitVec 24) ++ s.fcode ++ BitVec.ofBool s.lenerr ++ BitVec.ofBool s.fault ++ BitVec.ofBool s.done
    ++ BitVec.ofBool s.busy

/-- Locked: `BUSY = 1 or FAULT = 1` (R100). -/
def locked (s : State) : Bool := s.busy || s.fault

/-- `LEN ≤ L_MAX` and `LEN ≤ MSG_CAP` (R104). -/
def lenAccepted (s : State) : Bool := decide (s.len.toNat ≤ Config.lMax) && decide (s.len.toNat ≤ s.msgCap)

/-- `Start` in an unlocked core: the common part, then exactly one of accepted and refused, by `LEN` at this instant
(R103, R104, R105). -/
def startRun (s : State) : State :=
  if lenAccepted s then s.clearResult.beginRun else s.clearResult.markLenErr

end Sys2Proof.Machine
end

