-- ==== Sys2Proof/Machine/HostPort.lean ====
section
/-! DEFINITION. The host transactions (45_sequencer_and_host.md R101 to R105, R117 to R121). A read sets `rdata` and
nothing else (R40); a write is ignored while the core is locked (R100). -/

namespace Sys2Proof.Machine

/-- `H.RDSTATUS` (R101): `rdata = zext_64(STATUS)`. -/
def execHRdstatus (s : State) : Host.Outcome State Fault Refusal :=
  .next (s.setRdata ((statusWord s).setWidth 64))

/-- `H.WRCTRL v` (R102): a start if `v[0] = 1` and the core is unlocked, else nothing. -/
def execHWrctrl (wdata : BitVec 64) (s : State) : Host.Outcome State Fault Refusal :=
  .next (if startBit wdata && !locked s then startRun s else s)

/-- `H.RDLEN` (R117): `rdata = LEN`. -/
def execHRdlen (s : State) : Host.Outcome State Fault Refusal := .next (s.setRdata s.len)

/-- `H.WRLEN L` (R118): any 64-bit value is stored; the range is checked at the start. -/
def execHWrlen (wdata : BitVec 64) (s : State) : Host.Outcome State Fault Refusal :=
  .next (if locked s then s else s.setLen wdata)

/-- `H.WRMSG addr, v` (R119): one byte, at an address that exists. -/
def execHWrmsg (addr wdata : BitVec 64) (s : State) : Host.Outcome State Fault Refusal :=
  .next (if !locked s && decide (addr.toNat < s.msgCap) then s.writeMsg addr.toNat (msgData wdata) else s)

/-- What a read of digest byte `n` returns (R120): the byte while `DONE = 1`, a free value while `DONE = 0` (log 3), and
0 for `n ≥ 20`. -/
def digestRead (s : State) (n : Nat) : BitVec 64 :=
  if n < 20 then zext64 (if s.done then s.digest.getD n 0 else Config.freeDigestByte s.resets s.starts n) else 0

/-- `H.RDDIGEST n` (R120). -/
def execHRddigest (addr : BitVec 64) (s : State) : Host.Outcome State Fault Refusal :=
  .next (s.setRdata (digestRead s addr.toNat))

/-- A reserved transaction (R121): a read returns 0, a write is ignored. -/
def reservedTxn (t : HostTxn) (s : State) : State := if t.we then s else s.setRdata 0

end Sys2Proof.Machine
end

