-- ==== Sys2Proof/Machine/Dispatch.lean ====
section
/-! DEFINITION. The meaning of every instruction: one arm for each row of spec/opcode_table.json. -/

namespace Sys2Proof.Machine

/-- What an instruction does to a state (R9). -/
def exec (i : Instr) (s : State) : Host.Outcome State Fault Refusal :=
  match i with
  | .idle => Sys2Proof.Machine.execIdle s
  | .init => Sys2Proof.Machine.execInit s
  | .ldw k => Sys2Proof.Machine.execLdw k s
  | .exp k => Sys2Proof.Machine.execExp k s
  | .binit => Sys2Proof.Machine.execBinit s
  | .rndCh t => Sys2Proof.Machine.execRndCh t s
  | .rndPara t => Sys2Proof.Machine.execRndPara t s
  | .rndMaj t => Sys2Proof.Machine.execRndMaj t s
  | .rndParb t => Sys2Proof.Machine.execRndParb t s
  | .acc => Sys2Proof.Machine.execAcc s
  | .out => Sys2Proof.Machine.execOut s
  | .hRdstatus => Sys2Proof.Machine.execHRdstatus s
  | .hWrctrl wdata => Sys2Proof.Machine.execHWrctrl wdata s
  | .hRdlen => Sys2Proof.Machine.execHRdlen s
  | .hWrlen wdata => Sys2Proof.Machine.execHWrlen wdata s
  | .hWrmsg addr wdata => Sys2Proof.Machine.execHWrmsg addr wdata s
  | .hRddigest addr => Sys2Proof.Machine.execHRddigest addr s

end Sys2Proof.Machine
end

