-- ==== Sys2Proof/Machine/Sequencer.lean ====
section
/-! DEFINITION. Whose turn it is and what the turn does (45_sequencer_and_host.md R98, R106): the step enable of the
core, the decoding of a host transaction, and reset. Also where an instruction is put so that the next step runs it. -/

namespace Sys2Proof.Machine

/-- The core's step (R106): with `FAULT = 1` it has none, with `BUSY = 0` it is in `IDLE`, else it performs the
micro-operation its control word names or raises the fault the decode demands (R48). -/
def coreTurn (s : State) : Host.Outcome State Fault Refusal :=
  if s.fault then .next s
  else if s.busy then
    match decodeSeq s.seq with
    | .ok i => exec i s
    | .error r => .next (raiseFault (faultOfReject r) s)
  else exec .idle s

/-- The host performs one transaction (R51, R98). -/
def hostTurn (t : HostTxn) (s : State) : Host.Outcome State Fault Refusal :=
  match decodeHost t with
  | .ok i => exec i s
  | .error _ => .next (reservedTxn t s)

/-- One turn: the head of the queue says which agent moves. When the queue is empty only the core is left; a faulted
core has no step then, and the machine stops (R130; log 5). -/
def takeTurn (s : State) : Host.Outcome State Fault Refusal :=
  match s.inbox with
  | [] => if s.fault then .fault .halted else coreTurn s
  | .core :: rest => coreTurn (s.setInbox rest)
  | .host t :: rest => hostTurn t (s.setInbox rest)
  | .reset :: rest => .next (applyReset (s.setInbox rest))

/-- A state whose next turn runs the raw word: a control word stands in `seq` of an unfaulted core that is busy unless
the word is `(IDLE, 0)`, and the core has the turn; a transaction is the next input. -/
def placeRaw (r : Raw) (s : State) : State :=
  match r with
  | .seq q => { s with seq := q, busy := decide (q ≠ 0), fault := false, inbox := .core :: s.inbox }
  | .host t => { s with inbox := .host t :: s.inbox }

/-- `placeRaw` for a number in the opcode table's numbering; a number that is no word places nothing. -/
def placeTableWord (s : State) (nbits w : Nat) : State :=
  match rawOfTable nbits w with
  | some r => placeRaw r s
  | none => s

end Sys2Proof.Machine
end

