-- ==== Sys2Proof/Machine/Sha1.lean ====
section
/-! DEFINITION. The pure function the core computes, written from the whole-block rules: `K` and `f` by round index
(10_state.md R31), `Round` (43_compressor.md R81), `Expand` (42_schedule_expander.md R76), `Compress` (43_compressor.md
R93) and `SHA1` (00_scope.md R3). No meaning uses them but for the three bit functions and `roundWith`; they are what
claims compare the machine with. -/

namespace Sys2Proof.Machine

/-- `K(t)` for `t < 80` (R31). -/
def kConst (t : Nat) : Word :=
  if t < 20 then 0x5A827999 else if t < 40 then 0x6ED9EBA1 else if t < 60 then 0x8F1BBCDC else 0xCA62C1D6

/-- `f(t, b, c, d)` for `t < 80` (R31). -/
def fFun (t : Nat) (b c d : Word) : Word :=
  if t < 20 then chF b c d else if t < 40 then parF b c d else if t < 60 then majF b c d else parF b c d

/-- `Round(t, (a, b, c, d, e), wt)` (R81). -/
def roundFn (t : Nat) (r : Working) (wt : Word) : Working := roundWith r (fFun t r.b r.c r.d) (kConst t) wt

/-- Word `i` of a block: bytes `4i .. 4i+3`, big-endian (R54). -/
def blockWord (b : List Byte) (i : Nat) : Word :=
  be32 (b.getD (4 * i) 0) (b.getD (4 * i + 1) 0) (b.getD (4 * i + 2) 0) (b.getD (4 * i + 3) 0)

/-- The next word of a schedule whose words so far are given (R76). -/
def nextWord (ws : List Word) : Word :=
  rotl32 (ws.getD (ws.length - 3) 0 ^^^ ws.getD (ws.length - 8) 0 ^^^ ws.getD (ws.length - 14) 0
    ^^^ ws.getD (ws.length - 16) 0) 1

/-- Append `n` words by the recurrence. -/
def extendBy : Nat → List Word → List Word
  | 0, ws => ws
  | n + 1, ws => extendBy n (ws ++ [nextWord ws])

/-- `Expand(B)`: the 80 words of a 64-byte block (R76). -/
def expand (b : List Byte) : List Word := extendBy 64 ((List.range 16).map (blockWord b))

/-- The accumulator value as a working value (R80). -/
def Acc.toWorking (h : Acc) : Working := ⟨h.h0, h.h1, h.h2, h.h3, h.h4⟩

/-- `S_n` of R92: `n` rounds from `S_0 = h`. -/
def roundsFrom (h : Acc) (ws : List Word) : Nat → Working
  | 0 => h.toWorking
  | t + 1 => roundFn t (roundsFrom h ws t) (ws.getD t 0)

/-- `Compress(H, W)` (R93). -/
def compress (h : Acc) (ws : List Word) : Acc := accumulate h (roundsFrom h ws 80)

/-- The accumulator after the first blocks of a padded message (R93). -/
def hashBlocks (bs : List (List Byte)) : Acc := bs.foldl (fun h b => compress h (expand b)) iv

/-- `SHA1(M)` (R3). -/
def sha1 (m : List Byte) : Vector Byte 20 := ser (hashBlocks (split (pad m)))

end Sys2Proof.Machine
end

