-- ==== Sys2Proof/Machine/Pseudo.lean ====
section
/-! DEFINITION. The pseudo-operations of 30_encoding.md R59 as the lists of instructions and transactions they abbreviate,
and the running of such lists. `H.POLL` repeats a read until the status says so, a number of times the host does not know
beforehand; it is given here for a chosen number of reads. -/

namespace Sys2Proof.Machine

/-- `RND t`: the variant R49 selects, for `t < 80`. -/
def rndOp (t : Nat) : Instr :=
  if t < 20 then .rndCh (BitVec.ofNat 7 t)
  else if t < 40 then .rndPara (BitVec.ofNat 7 t)
  else if t < 60 then .rndMaj (BitVec.ofNat 7 t)
  else .rndParb (BitVec.ofNat 7 t)

/-- `SCHED`: `LDW 0 .. LDW 15; EXP 16 .. EXP 79`. -/
def pseudoSched : List Instr :=
  (List.range 16).map (fun i => .ldw (BitVec.ofNat 7 i)) ++ (List.range 64).map (fun i => .exp (BitVec.ofNat 7 (i + 16)))

/-- `ROUNDS`: `RND 0 .. RND 79`. -/
def pseudoRounds : List Instr := (List.range 80).map rndOp

/-- `BLOCK`: `SCHED; BINIT; ROUNDS; ACC`. -/
def pseudoBlock : List Instr := pseudoSched ++ [.binit] ++ pseudoRounds ++ [.acc]

/-- `HASH`: `INIT; BLOCK` repeated `NBLK(LEN)` times`; OUT`. -/
def pseudoHash (len : Nat) : List Instr := .init :: (List.replicate (nblk len) pseudoBlock).flatten ++ [.out]

/-- The transaction that carries a host instruction (R51); `none` for a micro-operation. -/
def txnOf (i : Instr) : Option HostTxn :=
  match encode i with
  | .host t => some t
  | .seq _ => none

/-- `H.START` = `H.WRCTRL 1`. -/
def hostStart : HostTxn := ⟨true, 1, 0, 1⟩

/-- `H.LOAD M`: the bytes in order, then the length. -/
def hostLoad (m : List Byte) : List HostTxn :=
  (List.range m.length).map (fun j => ⟨true, 3, BitVec.ofNat 64 j, (m.getD j 0).setWidth 64⟩)
    ++ [⟨true, 2, 0, BitVec.ofNat 64 m.length⟩]

/-- `H.POLL` with `n` reads of the status. -/
def hostPoll (n : Nat) : List HostTxn := List.replicate n ⟨false, 0, 0, 0⟩

/-- `H.READ`: `H.RDDIGEST 0 .. 19`. -/
def hostRead : List HostTxn := (List.range 20).map fun n => ⟨false, 4, BitVec.ofNat 64 n, 0⟩

/-- Run a list of instructions one after another, stopping at the first that gives no next state. -/
def execList : List Instr → State → Host.Outcome State Fault Refusal
  | [], s => .next s
  | i :: is, s =>
    match exec i s with
    | .next t => execList is t
    | .fault r => .fault r
    | .refused r => .refused r

/-- The micro-operations the core performs in its next `n` steps, if every turn is the core's. -/
def coreTrace : Nat → State → List Instr
  | 0, _ => []
  | n + 1, s =>
    match decodeSeq s.seq, coreTurn s with
    | .ok i, .next t => i :: coreTrace n t
    | _, _ => []

end Sys2Proof.Machine
end

