-- ==== Sys2Proof/Safety.lean ====
section
/-! DEFINITION. What claims call a safe state and a run. `Inv` is the invariant list of 10_state.md R35 with the
canonical form of the message memory and the 56-bit bound of `blk` (R17, R24) added, and with item 3's bound on `blk` left
out in the one state where the rules do not keep it (log 10). -/

namespace Sys2Proof.Machine

/-- `n` steps of the machine. -/
def runSteps (n : Nat) (s : State) : Host.Outcome State Fault Refusal := Host.Core.run Sys2Proof.core n s

/-- The states of R35 (log 10). -/
structure Inv (s : State) : Prop where
  /-- Item 1: `BUSY = 1` iff `phase ≠ IDLE`. -/
  busyIff : s.busy = true ↔ seqPhase s.seq ≠ .idle
  /-- Item 2: the control word is legal. -/
  legal : ∃ i, decodeSeq s.seq = .ok i
  /-- Item 3, the length. -/
  lenOk : s.busy = true → lenAccepted s = true
  /-- Item 3, the block counter, once `INIT` has set it. -/
  blkOk : s.busy = true → seqPhase s.seq ≠ .init → s.blk < nblk s.len.toNat
  /-- Item 4: not both busy and done. -/
  notBoth : ¬ (s.busy = true ∧ s.done = true)
  /-- Item 4: a refused start leaves the core idle with no digest. -/
  lenErr : s.lenerr = true → s.busy = false ∧ s.done = false
  /-- Item 5. -/
  noFault : s.fault = false ∧ s.fcode = 0
  /-- The block counter fits 56 bits, in every state (R17, R24). -/
  blkFits : s.blk < 2 ^ 56
  /-- The message memory is in canonical form and inside its address range. -/
  memOk : Memory.wf s.msg = true ∧ Memory.inside s.msgCap s.msg = true

/-- A state from which no run ends in a fault or a refusal, whatever turns are queued (R131). -/
def Safe (s : State) : Prop :=
  ∀ n, ∃ t, runSteps n s = .next t ∧ t.fault = false

end Sys2Proof.Machine
end

