-- ==== Sys2Proof/Certificates/Slice0/Obligations.lean ====
section
/-! DEFINITION. The statements for the provers. Each docstring names the rule of spec/ it formalises; where a clause rests
on a choice of the model it names the log entry. -/

open Sys2Proof Sys2Proof.Machine

/-! ### Encoding and decoding -/

/-- 30_encoding.md R47, R49, evidence V18: control words written out from the tables decode to the micro-operation they
stand for. -/
def Obligations.SpecControlWordsDecode : Prop :=
  decode (.seq 0b000_0000000#10) = .ok .idle ∧
  decode (.seq 0b001_0000000#10) = .ok .init ∧
  decode (.seq 0b010_0000000#10) = .ok (.ldw 0) ∧
  decode (.seq 0b010_0001111#10) = .ok (.ldw 15) ∧
  decode (.seq 0b011_0010000#10) = .ok (.exp 16) ∧
  decode (.seq 0b011_1001111#10) = .ok (.exp 79) ∧
  decode (.seq 0b100_0000000#10) = .ok .binit ∧
  decode (.seq 0b101_0010011#10) = .ok (.rndCh 19) ∧
  decode (.seq 0b101_0010100#10) = .ok (.rndPara 20) ∧
  decode (.seq 0b101_0101000#10) = .ok (.rndMaj 40) ∧
  decode (.seq 0b101_0111011#10) = .ok (.rndMaj 59) ∧
  decode (.seq 0b101_0111100#10) = .ok (.rndParb 60) ∧
  decode (.seq 0b101_1001111#10) = .ok (.rndParb 79) ∧
  decode (.seq 0b110_0000000#10) = .ok .acc ∧
  decode (.seq 0b111_0000000#10) = .ok .out

/-- The `(we, hsel)` table of 30_encoding.md R51, for every address and data: the six transactions, and every other pair
reserved. -/
def Obligations.TransactionCodesDecode : Prop :=
  ∀ a v : BitVec 64,
    decode (.host ⟨false, 0b000, a, v⟩) = .ok .hRdstatus ∧
    decode (.host ⟨true, 0b000, a, v⟩) = .error .hostReserved ∧
    decode (.host ⟨false, 0b001, a, v⟩) = .error .hostReserved ∧
    decode (.host ⟨true, 0b001, a, v⟩) = .ok (.hWrctrl v) ∧
    decode (.host ⟨false, 0b010, a, v⟩) = .ok .hRdlen ∧
    decode (.host ⟨true, 0b010, a, v⟩) = .ok (.hWrlen v) ∧
    decode (.host ⟨false, 0b011, a, v⟩) = .error .hostReserved ∧
    decode (.host ⟨true, 0b011, a, v⟩) = .ok (.hWrmsg a v) ∧
    decode (.host ⟨false, 0b100, a, v⟩) = .ok (.hRddigest a) ∧
    decode (.host ⟨true, 0b100, a, v⟩) = .error .hostReserved ∧
    ∀ we : Bool, ∀ hsel : BitVec 3, 5 ≤ hsel.toNat → decode (.host ⟨we, hsel, a, v⟩) = .error .hostReserved

/-- Decoding the encoding of a well-formed instruction gives it back, every operand at every value the encoding
admits (R47, R49, R51). -/
def Obligations.DecodeEncodeRoundTrip : Prop :=
  ∀ i : Instr, i.wf = true → decode (encode i) = .ok i

/-- The other direction: a control word that decodes is the encoding of what it decodes to, which is well formed (so no
two control words decode to one instruction); a transaction that decodes has the direction and port of the encoding of
what it decodes to, and differs from it at most in operands its port ignores (R47, R48, R51). -/
def Obligations.DecodedWordIsTheEncoding : Prop :=
  (∀ (q : BitVec 10) (i : Instr), decodeSeq q = .ok i → i.wf = true ∧ encode i = .seq q) ∧
  (∀ (t : HostTxn) (i : Instr), decodeHost t = .ok i → i.wf = true ∧
    ∃ u : HostTxn, encode i = .host u ∧ u.we = t.we ∧ u.hsel = t.hsel ∧ decodeHost u = .ok i ∧
      (u.addr = t.addr ∨ u.addr = 0) ∧ (u.wdata = t.wdata ∨ u.wdata = 0))

/-! ### Steps, turns, reset and faults -/

/-- A step runs the decoded micro-operation: when the core has the turn, the step is the core's, and if it is busy and unfaulted and
its control word decodes to `i`, it is `exec i`; a queued turn of the core is taken off the queue first (R98, R106). The queue is the
model's (log 5). -/
def Obligations.StepRunsDecodedControlWord : Prop :=
  ∀ s : State,
    (s.inbox = [] → s.fault = false → step s = coreTurn s) ∧
    (∀ rest, s.inbox = .core :: rest → step s = coreTurn { s with inbox := rest }) ∧
    (∀ i : Instr, s.busy = true → s.fault = false → decodeSeq s.seq = .ok i →
      (s.inbox = [] → step s = exec i s) ∧
      (∀ rest, s.inbox = .core :: rest → step s = exec i { s with inbox := rest }))

/-- A step runs the decoded host transaction at the head of the queue, in every state (R51, R98; the queue: log 5). -/
def Obligations.StepRunsDecodedTransaction : Prop :=
  ∀ (s : State) (t : HostTxn) (rest : List Input) (i : Instr), s.inbox = .host t :: rest → decodeHost t = .ok i →
    step s = exec i { s with inbox := rest }

/-- `decode(seq, BUSY)` of R48 with the step enable of R106 and the faults of R126, R127: a faulted core, and one that is not busy,
changes nothing; a busy unfaulted one performs the micro-operation of its phase and index, or the fault entry with the code the table
gives, which writes `FAULT`, `FCODE` and `BUSY` and nothing else (R129). -/
def Obligations.CoreStepFollowsDecodeTable : Prop :=
  ∀ (s : State) (idx : BitVec 7),
    (s.busy = false ∨ s.fault = true → coreTurn s = .next s) ∧
    (s.busy = true → s.fault = false →
      (s.seq = 0b000#3 ++ idx → coreTurn s = .next { s with fault := true, fcode := 2, busy := false }) ∧
      (s.seq = 0b001#3 ++ idx → coreTurn s =
        if idx = 0 then exec .init s else .next { s with fault := true, fcode := 2, busy := false }) ∧
      (s.seq = 0b010#3 ++ idx → coreTurn s =
        if idx.toNat ≤ 15 then exec (.ldw idx) s else .next { s with fault := true, fcode := 2, busy := false }) ∧
      (s.seq = 0b011#3 ++ idx → coreTurn s =
        if 16 ≤ idx.toNat ∧ idx.toNat ≤ 79 then exec (.exp idx) s
        else .next { s with fault := true, fcode := 2, busy := false }) ∧
      (s.seq = 0b100#3 ++ idx → coreTurn s =
        if idx = 0 then exec .binit s else .next { s with fault := true, fcode := 2, busy := false }) ∧
      (s.seq = 0b101#3 ++ idx → coreTurn s =
        if idx.toNat ≤ 19 then exec (.rndCh idx) s
        else if idx.toNat ≤ 39 then exec (.rndPara idx) s
        else if idx.toNat ≤ 59 then exec (.rndMaj idx) s
        else if idx.toNat ≤ 79 then exec (.rndParb idx) s
        else .next { s with fault := true, fcode := 1, busy := false }) ∧
      (s.seq = 0b110#3 ++ idx → coreTurn s =
        if idx = 0 then exec .acc s else .next { s with fault := true, fcode := 2, busy := false }) ∧
      (s.seq = 0b111#3 ++ idx → coreTurn s =
        if idx = 0 then exec .out s else .next { s with fault := true, fcode := 2, busy := false }))

/-- R121: a reserved transaction that reads returns 0, one that writes is ignored; nothing else changes. -/
def Obligations.ReservedTransactionsDoNothing : Prop :=
  ∀ (s : State) (t : HostTxn),
    (t.we = false → (t.hsel = 1 ∨ t.hsel = 3 ∨ 5 ≤ t.hsel.toNat) → hostTurn t s = .next { s with rdata := 0 }) ∧
    (t.we = true → (t.hsel = 0 ∨ t.hsel = 4 ∨ 5 ≤ t.hsel.toNat) → hostTurn t s = .next s)

/-- R33: the values the spec gives for reset, for every capacity of the message memory; no byte of `MSG` holds a value. The
values the spec leaves unspecified are not stated (log 6). -/
def Obligations.ResetStateValues : Prop :=
  State.reset = State.launch Config.msgCap ∧
  ∀ cap : Nat, ∃ s, s = State.launch cap ∧ s.seq = 0b000_0000000#10 ∧ s.blk = 0 ∧ s.busy = false ∧ s.done = false ∧
    s.fault = false ∧ s.lenerr = false ∧ s.fcode = 0 ∧ s.len = 0 ∧ s.msgCap = cap ∧
    ∀ a, Memory.get s.msg a = none

/-- R141: when reset is asserted, in that step the state becomes the reset state, whatever it was; `MSG` forgets its bytes.
The values of the registers the rule leaves unspecified are not stated (log 6). The queue and `rdata` are kept (log 7). -/
def Obligations.ResetInputGivesResetState : Prop :=
  ∀ (s : State) (rest : List Input), s.inbox = .reset :: rest →
    ∃ t, step s = .next t ∧ t.seq = 0b000_0000000#10 ∧ t.blk = 0 ∧ t.busy = false ∧ t.done = false ∧ t.fault = false ∧
      t.lenerr = false ∧ t.fcode = 0 ∧ t.len = 0 ∧ (∀ a, Memory.get t.msg a = none) ∧
      t.msgCap = s.msgCap ∧ t.inbox = rest ∧ t.rdata = s.rdata

/-- R130: in the faulted state no turn but reset changes anything of the core: the core has no step, host writes are ignored
and `FCODE` keeps the first code; reset clears `FAULT` and `FCODE`. -/
def Obligations.FaultIsStickyUntilReset : Prop :=
  ∀ (s : State) (x : Input) (rest : List Input), s.fault = true → s.inbox = x :: rest →
    (x ≠ .reset → ∃ v, step s = .next { s with inbox := rest, rdata := v }) ∧
    (x = .reset → ∃ t, step s = .next t ∧ t.fault = false ∧ t.fcode = 0)

/-- Every step of every state answers a next state, but that a faulted core with no input left is stuck (R106, R130, U9; the
stop is the model's form of `stuck`, log 5). So no instruction that is run is refused. -/
def Obligations.EveryStepAnswersOrIsStuck : Prop :=
  ∀ s : State,
    (s.inbox = [] ∧ s.fault = true → step s = .fault .halted) ∧
    (¬ (s.inbox = [] ∧ s.fault = true) → ∃ t, step s = .next t)

/-- A term no control word stands for is refused by name (the model's own, no rule). -/
def Obligations.IllFormedTermsAreRefused : Prop :=
  ∀ (i : Instr) (s : State), i.wf = false → exec i s = .refused .illFormed

/-! ### Micro-operations -/

/-- R106: `IDLE` in a core that is not busy changes nothing; in a busy one it is the fault with code 2 (R127). -/
def Obligations.IdleResult : Prop :=
  ∀ s : State,
    (s.busy = false → exec .idle s = .next s) ∧
    (s.busy = true → exec .idle s = .next { s with fault := true, fcode := 2, busy := false })

/-- R91, R107: `INIT`, its encoding and its effect. The five constants are those of R22, which the spec marks as general knowledge
(G1): PRESUMED, log 8. -/
def Obligations.InitResult : Prop :=
  (∀ idx : BitVec 7, decode (.seq (0b001#3 ++ idx)) = if idx = 0 then .ok .init else .error .seqReserved) ∧
  ∀ s : State, exec .init s = .next
    { s with h := ⟨0x67452301, 0xEFCDAB89, 0x98BADCFE, 0x10325476, 0xC3D2E1F0⟩, blk := 0, seq := 0b010_0000000 }

/-- R74, R108, R128: `LDW i`, its encoding and its effect: it assembles four bytes of `PAD`, the most significant first, into `w[i]`,
and goes to the next word or to `EXP 16`; nothing else changes. If it would read a `PAD` address at or beyond `P(LEN)` it is the fault
entry with code 3; `w` and `seq` are not written. The statement is about every `LEN`: that `LDW` goes on in a forced state with
`MSG_CAP < LEN` is the model's own choice (log 16), and so is the padded message of a `LEN` above `L_MAX`, where R61 defines no Padder
(log 14). -/
def Obligations.LoadWordResult : Prop :=
  (∀ i : BitVec 7, decode (.seq (0b010#3 ++ i)) = if i.toNat ≤ 15 then .ok (.ldw i) else .error .seqReserved) ∧
  ∀ (s : State) (i : BitVec 7), i.toNat ≤ 15 →
    (64 * s.blk + 4 * i.toNat + 3 < padLen s.len.toNat →
      ∃ b0 b1 b2 b3 : Byte,
        padByte s (64 * s.blk + 4 * i.toNat) = some b0 ∧ padByte s (64 * s.blk + 4 * i.toNat + 1) = some b1 ∧
        padByte s (64 * s.blk + 4 * i.toNat + 2) = some b2 ∧ padByte s (64 * s.blk + 4 * i.toNat + 3) = some b3 ∧
        exec (.ldw i) s = .next
          { s with
            w := s.w.setIfInBounds i.toNat
              (BitVec.ofNat 32 (b0.toNat * 2 ^ 24 + b1.toNat * 2 ^ 16 + b2.toNat * 2 ^ 8 + b3.toNat))
            seq := if i.toNat = 15 then 0b011_0010000 else BitVec.ofNat 10 (2 * 128 + (i.toNat + 1)) }) ∧
    (padLen s.len.toNat ≤ 64 * s.blk + 4 * i.toNat + 3 →
      exec (.ldw i) s = .next { s with fault := true, fcode := 3, busy := false })

/-- R75, R109: `EXP i`, its encoding and its effect. -/
def Obligations.ExpandWordResult : Prop :=
  (∀ i : BitVec 7, decode (.seq (0b011#3 ++ i)) =
    if 16 ≤ i.toNat ∧ i.toNat ≤ 79 then .ok (.exp i) else .error .seqReserved) ∧
  ∀ (s : State) (i : BitVec 7), 16 ≤ i.toNat → i.toNat ≤ 79 →
    exec (.exp i) s = .next
      { s with
        w := s.w.setIfInBounds i.toNat
          ((s.readW (i.toNat - 3) ^^^ s.readW (i.toNat - 8) ^^^ s.readW (i.toNat - 14) ^^^ s.readW (i.toNat - 16)).rotateLeft 1)
        seq := if i.toNat = 79 then 0b100_0000000 else BitVec.ofNat 10 (3 * 128 + (i.toNat + 1)) }

/-- R80, R110: `BINIT`, its encoding and its effect; `h` is not changed. -/
def Obligations.BlockInitResult : Prop :=
  (∀ idx : BitVec 7, decode (.seq (0b100#3 ++ idx)) = if idx = 0 then .ok .binit else .error .seqReserved) ∧
  ∀ s : State, exec .binit s = .next
    { s with regs := ⟨s.h.h0, s.h.h1, s.h.h2, s.h.h3, s.h.h4⟩, seq := 0b101_0000000 }

/-- R83: `RND.CH t`, its encoding and its effect. -/
def Obligations.RoundChResult : Prop :=
  (∀ t : BitVec 7, t.toNat ≤ 19 → decode (.seq (0b101#3 ++ t)) = .ok (.rndCh t)) ∧
  ∀ (s : State) (t : BitVec 7), t.toNat ≤ 19 →
    exec (.rndCh t) s = .next
      { s with
        regs := ⟨s.regs.a.rotateLeft 5 + ((s.regs.b &&& s.regs.c) ||| (~~~s.regs.b &&& s.regs.d)) + s.regs.e
            + 0x5A827999 + s.readW t.toNat, s.regs.a, s.regs.b.rotateLeft 30, s.regs.c, s.regs.d⟩
        seq := BitVec.ofNat 10 (5 * 128 + (t.toNat + 1)) }

/-- R84: `RND.PARA t`, its encoding and its effect. -/
def Obligations.RoundParaResult : Prop :=
  (∀ t : BitVec 7, 20 ≤ t.toNat → t.toNat ≤ 39 → decode (.seq (0b101#3 ++ t)) = .ok (.rndPara t)) ∧
  ∀ (s : State) (t : BitVec 7), 20 ≤ t.toNat → t.toNat ≤ 39 →
    exec (.rndPara t) s = .next
      { s with
        regs := ⟨s.regs.a.rotateLeft 5 + (s.regs.b ^^^ s.regs.c ^^^ s.regs.d) + s.regs.e
            + 0x6ED9EBA1 + s.readW t.toNat, s.regs.a, s.regs.b.rotateLeft 30, s.regs.c, s.regs.d⟩
        seq := BitVec.ofNat 10 (5 * 128 + (t.toNat + 1)) }

/-- R85: `RND.MAJ t`, its encoding and its effect. -/
def Obligations.RoundMajResult : Prop :=
  (∀ t : BitVec 7, 40 ≤ t.toNat → t.toNat ≤ 59 → decode (.seq (0b101#3 ++ t)) = .ok (.rndMaj t)) ∧
  ∀ (s : State) (t : BitVec 7), 40 ≤ t.toNat → t.toNat ≤ 59 →
    exec (.rndMaj t) s = .next
      { s with
        regs := ⟨s.regs.a.rotateLeft 5
            + ((s.regs.b &&& s.regs.c) ||| (s.regs.b &&& s.regs.d) ||| (s.regs.c &&& s.regs.d)) + s.regs.e
            + 0x8F1BBCDC + s.readW t.toNat, s.regs.a, s.regs.b.rotateLeft 30, s.regs.c, s.regs.d⟩
        seq := BitVec.ofNat 10 (5 * 128 + (t.toNat + 1)) }

/-- R86: `RND.PARB t`, its encoding and its effect; the successor of the last round is `ACC`. -/
def Obligations.RoundParbResult : Prop :=
  (∀ t : BitVec 7, 60 ≤ t.toNat → t.toNat ≤ 79 → decode (.seq (0b101#3 ++ t)) = .ok (.rndParb t)) ∧
  ∀ (s : State) (t : BitVec 7), 60 ≤ t.toNat → t.toNat ≤ 79 →
    exec (.rndParb t) s = .next
      { s with
        regs := ⟨s.regs.a.rotateLeft 5 + (s.regs.b ^^^ s.regs.c ^^^ s.regs.d) + s.regs.e
            + 0xCA62C1D6 + s.readW t.toNat, s.regs.a, s.regs.b.rotateLeft 30, s.regs.c, s.regs.d⟩
        seq := if t.toNat = 79 then 0b110_0000000 else BitVec.ofNat 10 (5 * 128 + (t.toNat + 1)) }

/-- R87: `ACC`, its encoding and its effect; `a..e` are not changed. -/
def Obligations.AccumulateResult : Prop :=
  (∀ idx : BitVec 7, decode (.seq (0b110#3 ++ idx)) = if idx = 0 then .ok .acc else .error .seqReserved) ∧
  ∀ s : State,
    (s.blk + 1 = padLen s.len.toNat / 64 → exec .acc s = .next
      { s with
        h := ⟨s.h.h0 + s.regs.a, s.h.h1 + s.regs.b, s.h.h2 + s.regs.c, s.h.h3 + s.regs.d, s.h.h4 + s.regs.e⟩
        seq := 0b111_0000000 }) ∧
    (s.blk + 1 ≠ padLen s.len.toNat / 64 → exec .acc s = .next
      { s with
        h := ⟨s.h.h0 + s.regs.a, s.h.h1 + s.regs.b, s.h.h2 + s.regs.c, s.h.h3 + s.regs.d, s.h.h4 + s.regs.e⟩
        blk := s.blk + 1
        seq := 0b010_0000000 })

/-- R96, R114: `OUT` writes all of `DIGEST`, byte `4k + q` being bits `31 - 8q .. 24 - 8q` of `h[k]`, sets `DONE`, clears `BUSY`
and goes to `IDLE`; nothing else changes. Its encoding beside it. -/
def Obligations.OutResult : Prop :=
  (∀ idx : BitVec 7, decode (.seq (0b111#3 ++ idx)) = if idx = 0 then .ok .out else .error .seqReserved) ∧
  ∀ s : State, ∃ dg : Vector Byte 20,
    exec .out s = .next { s with digest := dg, done := true, busy := false, seq := 0b000_0000000 } ∧
    ∀ q : Nat, q < 4 →
      dg.getD q 0 = s.h.h0.extractLsb' (24 - 8 * q) 8 ∧ dg.getD (4 + q) 0 = s.h.h1.extractLsb' (24 - 8 * q) 8 ∧
      dg.getD (8 + q) 0 = s.h.h2.extractLsb' (24 - 8 * q) 8 ∧ dg.getD (12 + q) 0 = s.h.h3.extractLsb' (24 - 8 * q) 8 ∧
      dg.getD (16 + q) 0 = s.h.h4.extractLsb' (24 - 8 * q) 8

/-! ### Host transactions -/

/-- R101: `H.RDSTATUS`, its encoding and its effect: it returns the flags packed in bits 7:0, the rest 0, and changes nothing else. -/
def Obligations.ReadStatusResult : Prop :=
  (∀ a v : BitVec 64, decode (.host ⟨false, 0, a, v⟩) = .ok .hRdstatus) ∧
  ∀ s : State, exec .hRdstatus s = .next
    { s with
      rdata := BitVec.ofNat 64 (s.busy.toNat + 2 * s.done.toNat + 4 * s.fault.toNat + 8 * s.lenerr.toNat
        + 16 * s.fcode.toNat) }

/-- R102, R105: the start command, its encoding and its effect (R103, R104 with them). A write to `CTRL` with bit 0 clear, or to a
locked core, does nothing. Otherwise `DONE` and `LENERR` are cleared, and then, by `LEN` at this instant, the start
is accepted (`BUSY`, `seq`) or refused (`LENERR`); nothing else
changes. The counter `starts` is the model's (log 3). -/
def Obligations.StartCommandResult : Prop :=
  (∀ a v : BitVec 64, decode (.host ⟨true, 1, a, v⟩) = .ok (.hWrctrl v)) ∧
  ∀ (s : State) (v : BitVec 64),
    (v.getLsbD 0 = false ∨ s.busy = true ∨ s.fault = true → exec (.hWrctrl v) s = .next s) ∧
    (v.getLsbD 0 = true → s.busy = false → s.fault = false → s.len.toNat ≤ 2 ^ 61 - 1 → s.len.toNat ≤ s.msgCap →
      exec (.hWrctrl v) s = .next
        { s with done := false, lenerr := false, busy := true, seq := 0b001_0000000, starts := s.starts + 1 }) ∧
    (v.getLsbD 0 = true → s.busy = false → s.fault = false → (2 ^ 61 - 1 < s.len.toNat ∨ s.msgCap < s.len.toNat) →
      exec (.hWrctrl v) s = .next { s with done := false, lenerr := true, starts := s.starts + 1 })

/-- R117: `H.RDLEN`, its encoding and its effect, at any time. -/
def Obligations.ReadLengthResult : Prop :=
  (∀ a v : BitVec 64, decode (.host ⟨false, 2, a, v⟩) = .ok .hRdlen) ∧
  ∀ s : State, exec .hRdlen s = .next { s with rdata := s.len }

/-- R118: `H.WRLEN L`, its encoding and its effect: it stores any 64-bit value in an unlocked core, and does nothing in a locked one. -/
def Obligations.WriteLengthResult : Prop :=
  (∀ a v : BitVec 64, decode (.host ⟨true, 2, a, v⟩) = .ok (.hWrlen v)) ∧
  ∀ (s : State) (l : BitVec 64),
    (s.busy = false ∧ s.fault = false → exec (.hWrlen l) s = .next { s with len := l }) ∧
    (s.busy = true ∨ s.fault = true → exec (.hWrlen l) s = .next s)

/-- R119: `H.WRMSG addr, v`, its encoding and its effect: in an unlocked core at an address below `MSG_CAP` it changes that byte to
`wdata[7:0]`, every other byte
and everything else staying; otherwise it does nothing. -/
def Obligations.WriteMessageResult : Prop :=
  (∀ a v : BitVec 64, decode (.host ⟨true, 3, a, v⟩) = .ok (.hWrmsg a v)) ∧
  ∀ (s : State) (a v : BitVec 64),
    (s.busy = false ∧ s.fault = false ∧ a.toNat < s.msgCap →
      ∃ m, exec (.hWrmsg a v) s = .next { s with msg := m } ∧
        State.readMsg { s with msg := m } a.toNat = v.extractLsb' 0 8 ∧
        ∀ x, x ≠ a.toNat → State.readMsg { s with msg := m } x = State.readMsg s x) ∧
    (s.busy = true ∨ s.fault = true ∨ s.msgCap ≤ a.toNat → exec (.hWrmsg a v) s = .next s)

/-- R120: `H.RDDIGEST n`, its encoding and its effect: it returns the byte while `DONE = 1`, 0 for `n ≥ 20`, and an
unspecified byte while `DONE = 0` (which byte is not stated; that it is one byte, zero-extended, is read from R51
and U6, log 3). Nothing else changes. -/
def Obligations.ReadDigestResult : Prop :=
  (∀ a v : BitVec 64, decode (.host ⟨false, 4, a, v⟩) = .ok (.hRddigest a)) ∧
  ∀ (s : State) (n : BitVec 64),
    (n.toNat < 20 → s.done = true →
      exec (.hRddigest n) s = .next { s with rdata := (s.digest.getD n.toNat 0).setWidth 64 }) ∧
    (n.toNat < 20 → s.done = false → ∃ v : Byte, exec (.hRddigest n) s = .next { s with rdata := v.setWidth 64 }) ∧
    (20 ≤ n.toNat → exec (.hRddigest n) s = .next { s with rdata := 0 })

/-! ### Frames and rules of the whole machine -/

/-- 10_state.md R21, the write column: what each micro-operation may change. `LEN`, `MSG` (every byte of it), `MSG_CAP` and what the
host has read are changed by none; the accumulator, the schedule, the working registers, the block counter and the digest only by
the micro-operations the table names; `DONE` and `DIGEST` only by `OUT`; `FAULT` and `FCODE` only by a fault. -/
def Obligations.MicroOperationWriteSets : Prop :=
  ∀ (i : Instr) (s t : State), (∃ q, encode i = .seq q) → exec i s = .next t →
    (t.len = s.len ∧ t.msg = s.msg ∧ (∀ a, t.readMsg a = s.readMsg a) ∧ t.msgCap = s.msgCap ∧ t.lenerr = s.lenerr ∧
      t.inbox = s.inbox ∧ t.rdata = s.rdata ∧ t.resets = s.resets ∧ t.starts = s.starts) ∧
    (t.h ≠ s.h → i = .init ∨ i = .acc) ∧
    (t.blk ≠ s.blk → i = .init ∨ i = .acc) ∧
    (t.w ≠ s.w → (∃ k, i = .ldw k) ∨ ∃ k, i = .exp k) ∧
    (∀ k, i = .ldw k ∨ i = .exp k → ∀ j, j ≠ k.toNat → t.readW j = s.readW j) ∧
    (t.regs ≠ s.regs → i = .binit ∨ ∃ k, i = .rndCh k ∨ i = .rndPara k ∨ i = .rndMaj k ∨ i = .rndParb k) ∧
    (t.digest ≠ s.digest ∨ t.done ≠ s.done → i = .out) ∧
    (t.fault ≠ s.fault ∨ t.fcode ≠ s.fcode → (i = .idle ∨ ∃ k, i = .ldw k) ∧ t.seq = s.seq ∧ t.w = s.w) ∧
    (t.busy ≠ s.busy → t.busy = false ∧ (i = .out ∨ t.fault = true))

/-- 45_sequencer_and_host.md R99, the write column: a transaction, reserved ones among them, changes nothing of the data path, of
the fault flags and of the digest; `BUSY`, `DONE`, `LENERR` and `seq` change only by a start in an unlocked core, `LEN` only by a
write of port 2 and `MSG` only by a write of port 3, at that address; a read changes `rdata` alone. -/
def Obligations.HostTransactionWriteSets : Prop :=
  ∀ (x : HostTxn) (s t : State), hostTurn x s = .next t →
    (t.regs = s.regs ∧ t.h = s.h ∧ t.w = s.w ∧ t.blk = s.blk ∧ t.fault = s.fault ∧ t.fcode = s.fcode ∧
      t.digest = s.digest ∧ t.msgCap = s.msgCap ∧ t.inbox = s.inbox ∧ t.resets = s.resets) ∧
    (t.busy ≠ s.busy ∨ t.done ≠ s.done ∨ t.lenerr ≠ s.lenerr ∨ t.seq ≠ s.seq →
      x.we = true ∧ x.hsel = 1 ∧ x.wdata.getLsbD 0 = true ∧ s.busy = false ∧ s.fault = false) ∧
    (t.len ≠ s.len → x.we = true ∧ x.hsel = 2) ∧
    (∀ a, t.readMsg a ≠ s.readMsg a → x.we = true ∧ x.hsel = 3 ∧ a = x.addr.toNat) ∧
    (x.we = false → t = { s with rdata := t.rdata }) ∧
    (x.we = true → t.rdata = s.rdata)

/-- R100: while locked, every host write is ignored and every read answers; so whichever agent has the turn, but for reset,
`LEN` and every byte of `MSG` are constant while the core is locked, and a faulted core stays locked. -/
def Obligations.LockHoldsInputsConstant : Prop :=
  ∀ s : State, s.busy = true ∨ s.fault = true →
    (∀ x : HostTxn, x.we = true → hostTurn x s = .next s) ∧
    (∀ x : HostTxn, x.we = false → ∃ v, hostTurn x s = .next { s with rdata := v }) ∧
    (∀ t, step s = .next t → s.inbox.head? ≠ some .reset →
      t.len = s.len ∧ (∀ a, t.readMsg a = s.readMsg a) ∧ (s.fault = true → t.fault = true))

/-- R40: a read has no side effect, and reading again returns the same value, reserved reads and reads of `DIGEST` while `DONE = 0`
among them. -/
def Obligations.ReadsAreIdempotent : Prop :=
  ∀ (x : HostTxn) (s : State), x.we = false →
    ∃ v, hostTurn x s = .next { s with rdata := v } ∧ hostTurn x { s with rdata := v } = .next { s with rdata := v }

/-- R113, R19: "`h` changes at `INIT` and at each of the `N` `ACC`, nowhere else": of all turns of all agents but reset, only a step
of a busy core at one of the two control words changes the accumulator. -/
def Obligations.AccumulatorChangesOnlyAtInitAndAcc : Prop :=
  ∀ s t : State, step s = .next t → s.inbox.head? ≠ some .reset → t.h ≠ s.h →
    s.busy = true ∧ (s.seq = 0b001_0000000 ∨ s.seq = 0b110_0000000)

/-- R29, R96: the digest register changes only at `OUT` of a busy core, and then `DONE` is set in the same step; `DONE` is set by
nothing else (reset apart). -/
def Obligations.DigestAndDoneChangeTogether : Prop :=
  ∀ s t : State, step s = .next t → s.inbox.head? ≠ some .reset →
    (t.digest ≠ s.digest ∨ (s.done = false ∧ t.done = true)) →
    s.busy = true ∧ s.seq = 0b111_0000000 ∧ t.done = true ∧ t.busy = false ∧ t.digest = ser s.h

/-! ### Invariants -/

/-- Every step of every agent leaves the capacity as it is (R8: a parameter), and keeps the message memory in canonical form and
inside `0 .. MSG_CAP-1` (R27), from every state in which it is. -/
def Obligations.StepKeepsMemoryForm : Prop :=
  ∀ s t : State, step s = .next t →
    t.msgCap = s.msgCap ∧
    (Memory.wf s.msg = true → Memory.inside s.msgCap s.msg = true →
      Memory.wf t.msg = true ∧ Memory.inside t.msgCap t.msg = true)

/-- The reset state meets the invariant of R35, for every capacity and every queue of turns. -/
def Obligations.ResetMeetsInvariant : Prop :=
  ∀ (cap : Nat) (q : List Input), Inv { State.launch cap with inbox := q }

/-- 10_state.md R35 (with item 3's bound on `blk` from `INIT` on, log 10) and the 56 bits of `blk` (R17, R24): every step of every agent
keeps the invariant. -/
def Obligations.StepKeepsInvariant : Prop :=
  ∀ s t : State, Inv s → step s = .next t → Inv t

/-- R35 item 3 as the spec words it, with no exception for the state before `INIT`. Expected to FAIL: R104 leaves `blk` as the
previous run left it, and `INIT` clears it only a step later (log 10). -/
def Obligations.BlockBoundAsWrittenIsKept : Prop :=
  ∀ s t : State, Inv s → (s.busy = true → s.blk < nblk s.len.toNat) → step s = .next t →
    (t.busy = true → t.blk < nblk t.len.toNat)

/-- R131: from reset, whatever the capacity and whatever turns of the core, the host and reset follow, no run stops and `FAULT` stays 0;
the status word is one of the four values 30_encoding.md R50 gives for such states. -/
def Obligations.NoFaultIsReachableFromReset : Prop :=
  ∀ (cap : Nat) (q : List Input),
    Safe { State.launch cap with inbox := q } ∧
    ∀ n t, runSteps n { State.launch cap with inbox := q } = .next t →
      statusWord t = 0x00 ∨ statusWord t = 0x01 ∨ statusWord t = 0x02 ∨ statusWord t = 0x08

/-! ### The data path -/

/-- R12: `rotl32` is the sum of the two halves of the formula, for every amount below the width. -/
def Obligations.RotationIsTheFormula : Prop :=
  ∀ (x : Word) (n : Nat), 0 < n → n < 32 →
    (rotl32 x n).toNat = (x.toNat * 2 ^ n) % 2 ^ 32 + x.toNat / 2 ^ (32 - n)

/-- 40_padder.md R62: `P(L)` is the smallest multiple of 64 that is at least `L + 9`, `Z(L)` and `NBLK(L)` are the closed forms. -/
def Obligations.PaddedLengthLaws : Prop :=
  ∀ l : Nat,
    64 * nblk l = padLen l ∧ 1 ≤ nblk l ∧
    padLen l % 64 = 0 ∧ l + 9 ≤ padLen l ∧ (∀ m, m % 64 = 0 → l + 9 ≤ m → padLen l ≤ m) ∧
    padLen l ≤ l + 72 ∧ padLen l = l + zeroCount l + 9 ∧ zeroCount l ≤ 63 ∧
    (l % 64 ≤ 55 → zeroCount l = 55 - l % 64 ∧ nblk l = l / 64 + 1) ∧
    (56 ≤ l % 64 → zeroCount l = 119 - l % 64 ∧ nblk l = l / 64 + 2) ∧
    (l ≤ 2 ^ 61 - 1 → padLen l ≤ 2 ^ 61 + 64 ∧ nblk l ≤ 2 ^ 55 + 1)

/-- 40_padder.md R65: `PadByte(j)` region by region (message, marker, zeros, length field, beyond the end), for `LEN` in the domain. The
length field is the 64-bit value `8 * L`, most significant byte first. -/
def Obligations.PadByteByRegion : Prop :=
  ∀ (s : State) (j : Nat), s.len.toNat ≤ 2 ^ 61 - 1 →
    (j < s.len.toNat → padByte s j = some (s.readMsg j)) ∧
    (j = s.len.toNat → padByte s j = some 0x80) ∧
    (s.len.toNat < j → j < padLen s.len.toNat - 8 → padByte s j = some 0x00) ∧
    (padLen s.len.toNat - 8 ≤ j → j < padLen s.len.toNat →
      padByte s j = some ((s.len <<< 3).extractLsb' (63 - 8 * (j + 8 - padLen s.len.toNat) - 7) 8)) ∧
    (padLen s.len.toNat ≤ j → padByte s j = none)

/-- 40_padder.md R66: `PadByte` and `Pad` agree on every address below `P(L)`, and there is no byte at or beyond it (R68). The rule speaks
of `L ≤ L_MAX` only; for a longer `LEN`, where R61 defines no Padder, the statement is about the model's own choice (log 14), as it is
about the bytes at or above `MSG_CAP` of a forced state with `MSG_CAP < LEN` (log 16). -/
def Obligations.PadByteAgreesWithPad : Prop :=
  ∀ (s : State) (j : Nat),
    (pad (message s)).length = padLen s.len.toNat ∧
    (j < padLen s.len.toNat → padByte s j = (pad (message s))[j]?) ∧
    (padLen s.len.toNat ≤ j → padByte s j = none)

/-- 41_block_splitter.md R70, R71: the blocks of a padded message are `NBLK` blocks of exactly 64 bytes that follow one another with
no gap and no overlap. For a message longer than `L_MAX`, where R61 defines no Padder, the statement is about the model's own choice
(log 14). -/
def Obligations.SplitIsAnExactPartition : Prop :=
  ∀ m : List Byte,
    64 * nblk m.length = (pad m).length ∧ 1 ≤ nblk m.length ∧
    (split (pad m)).length = nblk m.length ∧ (∀ b ∈ split (pad m), b.length = 64) ∧ (split (pad m)).flatten = pad m

/-- 40_padder.md R67 item 4: two different messages in the domain have different padded messages. -/
def Obligations.PadIsInjective : Prop :=
  ∀ m m' : List Byte, m.length ≤ 2 ^ 61 - 1 → m'.length ≤ 2 ^ 61 - 1 → pad m = pad m' → m = m'

/-- 44_digest_assembly.md R95: the layout of `Ser(H)`, and `Ser` is a bijection between accumulator values and 20-byte strings. -/
def Obligations.SerialisationIsABijection : Prop :=
  (∀ (x : Acc) (q : Nat), q < 4 →
    (ser x).getD q 0 = x.h0.extractLsb' (24 - 8 * q) 8 ∧ (ser x).getD (4 + q) 0 = x.h1.extractLsb' (24 - 8 * q) 8 ∧
    (ser x).getD (8 + q) 0 = x.h2.extractLsb' (24 - 8 * q) 8 ∧ (ser x).getD (12 + q) 0 = x.h3.extractLsb' (24 - 8 * q) 8 ∧
    (ser x).getD (16 + q) 0 = x.h4.extractLsb' (24 - 8 * q) 8) ∧
  (∀ x y : Acc, ser x = ser y → x = y) ∧ ∀ v : Vector Byte 20, ∃ x : Acc, ser x = v

/-- 42_schedule_expander.md R78: `Expand` is linear over xor, sends the zero block to zeros, and is injective. -/
def Obligations.ExpandIsLinearAndInjective : Prop :=
  (∀ b b' : List Byte, b.length = 64 → b'.length = 64 →
    expand (List.zipWith (· ^^^ ·) b b') = List.zipWith (· ^^^ ·) (expand b) (expand b')) ∧
  expand (List.replicate 64 0) = List.replicate 80 0 ∧
  (∀ b b' : List Byte, b.length = 64 → b'.length = 64 → expand b = expand b' → b = b')

/-- 43_compressor.md R81, R82, 10_state.md R31, 45_sequencer_and_host.md R111: each of the four round variants, at the control word of any `t` below 80, is `Round` with the `f`
and `K` that R31 gives `t`. -/
def Obligations.EveryRoundIsTheRoundFunction : Prop :=
  ∀ (s : State) (t : Nat), t < 80 → s.busy = true → s.fault = false → s.seq = BitVec.ofNat 10 (5 * 128 + t) →
    ∃ q, coreTurn s = .next { s with regs := roundFn t s.regs (s.readW t), seq := q } ∧
      q = if t = 79 then 0b110_0000000 else BitVec.ofNat 10 (5 * 128 + t + 1)

/-! ### Whole blocks and whole runs -/

/-- R76: `Expand(B)` is the list of 80 words given by the big-endian words of the block and the recurrence; after the 80
micro-operations `SCHED` on block `blk`, `w` is `Expand` of that block of the padded message, whatever `w` held before (R77). Nothing
else but `seq` changes. In forced states the second clause is about the model's own choices: that `LDW` goes on where
`MSG_CAP < LEN` (log 16), and the padded message of a `LEN` above `L_MAX`, where R61 defines no Padder (log 14). -/
def Obligations.SchedComputesExpand : Prop :=
  (∀ b : List Byte, b.length = 64 → (expand b).length = 80 ∧
    (∀ i, i < 16 → (expand b).getD i 0 =
      be32 (b.getD (4 * i) 0) (b.getD (4 * i + 1) 0) (b.getD (4 * i + 2) 0) (b.getD (4 * i + 3) 0)) ∧
    (∀ i, 16 ≤ i → i < 80 → (expand b).getD i 0 =
      rotl32 ((expand b).getD (i - 3) 0 ^^^ (expand b).getD (i - 8) 0 ^^^ (expand b).getD (i - 14) 0
        ^^^ (expand b).getD (i - 16) 0) 1)) ∧
  (∀ (s : State) (b : List Byte), (split (pad (message s)))[s.blk]? = some b →
    ∃ w' : Vector Word 80, execList pseudoSched s = .next { s with w := w', seq := 0b100_0000000 } ∧ w'.toList = expand b)

/-- R93: `BINIT; ROUNDS; ACC` replaces `h` by `Compress(h, w)`, from any state. -/
def Obligations.RoundsComputeCompress : Prop :=
  ∀ s : State, ∃ t, execList ([.binit] ++ pseudoRounds ++ [.acc]) s = .next t ∧ t.h = compress s.h s.w.toList ∧ t.w = s.w

/-- 45_sequencer_and_host.md R113: an accepted start causes exactly the micro-operation trace `HASH`. -/
def Obligations.AcceptedStartCausesHashTrace : Prop :=
  ∀ s t : State, s.busy = false → s.fault = false → lenAccepted s = true → exec (.hWrctrl 1) s = .next t →
    coreTrace (162 * nblk s.len.toNat + 2) t = pseudoHash s.len.toNat

/-- 45_sequencer_and_host.md R115, and the status words of R123: from an accepted start the core is busy, with status word `0x01`, after every number of core steps below
`162 * NBLK(LEN) + 2`, and is done after exactly that many. -/
def Obligations.BusyUntilExactlyTheStepCount : Prop :=
  ∀ s : State, s.busy = false → s.fault = false → s.fcode = 0 → lenAccepted s = true →
    (∀ k, k < 162 * nblk s.len.toNat + 2 →
      ∃ t, runSteps (k + 1) { s with inbox := [.host hostStart] } = .next t ∧ statusWord t = 0x01) ∧
    ∃ t, runSteps (162 * nblk s.len.toNat + 3) { s with inbox := [.host hostStart] } = .next t ∧ statusWord t = 0x02

/-- R116, R3: from any unlocked state with `LEN` in the domain, an accepted start followed by `162 * NBLK(LEN) + 2` core steps
reaches `BUSY = 0`, `DONE = 1`, `FAULT = 0` and `DIGEST = SHA1(MSG[0 .. LEN-1])`. -/
def Obligations.RunComputesSha1 : Prop :=
  ∀ s : State, s.busy = false → s.fault = false → lenAccepted s = true →
    ∃ t, runSteps (162 * nblk s.len.toNat + 3) { s with inbox := [.host hostStart] } = .next t ∧
      t.busy = false ∧ t.done = true ∧ t.fault = false ∧ t.digest = sha1 (message s)

/-- R116, last sentence: no host transaction interleaved with those steps can change this outcome. `pre` is any sequence of turns
without reset in which the core has one turn less than the run takes; the core's last turn follows. -/
def Obligations.HostCannotDisturbARun : Prop :=
  ∀ (s : State) (pre : List Input), s.busy = false → s.fault = false → lenAccepted s = true →
    .reset ∉ pre → pre.count .core = 162 * nblk s.len.toNat + 1 →
    ∃ t, runSteps (pre.length + 2) { s with inbox := .host hostStart :: (pre ++ [.core]) } = .next t ∧
      t.busy = false ∧ t.done = true ∧ t.fault = false ∧ t.digest = sha1 (message s) ∧ t.len = s.len ∧
      (∀ a, t.readMsg a = s.readMsg a)

/-- 44_digest_assembly.md R97 item 2: two runs with the same `LEN` and the same `MSG[0 .. LEN-1]` end with the same `DIGEST`, whatever
the earlier history of the core (its registers, schedule, accumulator and the rest of `MSG`). -/
def Obligations.DigestDependsOnTheMessageAlone : Prop :=
  ∀ s s' : State, s.busy = false → s.fault = false → lenAccepted s = true →
    s'.busy = false → s'.fault = false → lenAccepted s' = true →
    s.len = s'.len → (∀ j, j < s.len.toNat → s.readMsg j = s'.readMsg j) →
    ∃ t t', runSteps (162 * nblk s.len.toNat + 3) { s with inbox := [.host hostStart] } = .next t ∧
      runSteps (162 * nblk s.len.toNat + 3) { s' with inbox := [.host hostStart] } = .next t' ∧
      t.done = true ∧ t'.done = true ∧ t.digest = t'.digest
end

