-- ==== Sys2Proof/Laws/State.lean ====
section
/-! SUPPORT. What each update of the state does to each field, so that no proof unfolds a record update. The
proofs are in brackets so that simp cites the lemmas and the kernel compares no states field by field. -/

namespace Sys2Proof.Machine

variable (s : State)

@[simp] theorem State.writeMsg_regs (addr : Nat) (v : Byte) :
    (s.writeMsg addr v).regs = s.regs := (rfl)
@[simp] theorem State.writeMsg_h (addr : Nat) (v : Byte) :
    (s.writeMsg addr v).h = s.h := (rfl)
@[simp] theorem State.writeMsg_w (addr : Nat) (v : Byte) :
    (s.writeMsg addr v).w = s.w := (rfl)
@[simp] theorem State.writeMsg_seq (addr : Nat) (v : Byte) :
    (s.writeMsg addr v).seq = s.seq := (rfl)
@[simp] theorem State.writeMsg_blk (addr : Nat) (v : Byte) :
    (s.writeMsg addr v).blk = s.blk := (rfl)
@[simp] theorem State.writeMsg_busy (addr : Nat) (v : Byte) :
    (s.writeMsg addr v).busy = s.busy := (rfl)
@[simp] theorem State.writeMsg_done (addr : Nat) (v : Byte) :
    (s.writeMsg addr v).done = s.done := (rfl)
@[simp] theorem State.writeMsg_fault (addr : Nat) (v : Byte) :
    (s.writeMsg addr v).fault = s.fault := (rfl)
@[simp] theorem State.writeMsg_lenerr (addr : Nat) (v : Byte) :
    (s.writeMsg addr v).lenerr = s.lenerr := (rfl)
@[simp] theorem State.writeMsg_fcode (addr : Nat) (v : Byte) :
    (s.writeMsg addr v).fcode = s.fcode := (rfl)
@[simp] theorem State.writeMsg_len (addr : Nat) (v : Byte) :
    (s.writeMsg addr v).len = s.len := (rfl)
@[simp] theorem State.writeMsg_msg (addr : Nat) (v : Byte) :
    (s.writeMsg addr v).msg = Memory.set s.msg addr v := (rfl)
@[simp] theorem State.writeMsg_digest (addr : Nat) (v : Byte) :
    (s.writeMsg addr v).digest = s.digest := (rfl)
@[simp] theorem State.writeMsg_msgCap (addr : Nat) (v : Byte) :
    (s.writeMsg addr v).msgCap = s.msgCap := (rfl)
@[simp] theorem State.writeMsg_inbox (addr : Nat) (v : Byte) :
    (s.writeMsg addr v).inbox = s.inbox := (rfl)
@[simp] theorem State.writeMsg_rdata (addr : Nat) (v : Byte) :
    (s.writeMsg addr v).rdata = s.rdata := (rfl)
@[simp] theorem State.writeMsg_resets (addr : Nat) (v : Byte) :
    (s.writeMsg addr v).resets = s.resets := (rfl)
@[simp] theorem State.writeMsg_starts (addr : Nat) (v : Byte) :
    (s.writeMsg addr v).starts = s.starts := (rfl)

@[simp] theorem State.setW_regs (i : Nat) (v : Word) :
    (s.setW i v).regs = s.regs := (rfl)
@[simp] theorem State.setW_h (i : Nat) (v : Word) :
    (s.setW i v).h = s.h := (rfl)
@[simp] theorem State.setW_w (i : Nat) (v : Word) :
    (s.setW i v).w = s.w.setIfInBounds i v := (rfl)
@[simp] theorem State.setW_seq (i : Nat) (v : Word) :
    (s.setW i v).seq = s.seq := (rfl)
@[simp] theorem State.setW_blk (i : Nat) (v : Word) :
    (s.setW i v).blk = s.blk := (rfl)
@[simp] theorem State.setW_busy (i : Nat) (v : Word) :
    (s.setW i v).busy = s.busy := (rfl)
@[simp] theorem State.setW_done (i : Nat) (v : Word) :
    (s.setW i v).done = s.done := (rfl)
@[simp] theorem State.setW_fault (i : Nat) (v : Word) :
    (s.setW i v).fault = s.fault := (rfl)
@[simp] theorem State.setW_lenerr (i : Nat) (v : Word) :
    (s.setW i v).lenerr = s.lenerr := (rfl)
@[simp] theorem State.setW_fcode (i : Nat) (v : Word) :
    (s.setW i v).fcode = s.fcode := (rfl)
@[simp] theorem State.setW_len (i : Nat) (v : Word) :
    (s.setW i v).len = s.len := (rfl)
@[simp] theorem State.setW_msg (i : Nat) (v : Word) :
    (s.setW i v).msg = s.msg := (rfl)
@[simp] theorem State.setW_digest (i : Nat) (v : Word) :
    (s.setW i v).digest = s.digest := (rfl)
@[simp] theorem State.setW_msgCap (i : Nat) (v : Word) :
    (s.setW i v).msgCap = s.msgCap := (rfl)
@[simp] theorem State.setW_inbox (i : Nat) (v : Word) :
    (s.setW i v).inbox = s.inbox := (rfl)
@[simp] theorem State.setW_rdata (i : Nat) (v : Word) :
    (s.setW i v).rdata = s.rdata := (rfl)
@[simp] theorem State.setW_resets (i : Nat) (v : Word) :
    (s.setW i v).resets = s.resets := (rfl)
@[simp] theorem State.setW_starts (i : Nat) (v : Word) :
    (s.setW i v).starts = s.starts := (rfl)

@[simp] theorem State.setRegs_regs (v : Working) :
    (s.setRegs v).regs = v := (rfl)
@[simp] theorem State.setRegs_h (v : Working) :
    (s.setRegs v).h = s.h := (rfl)
@[simp] theorem State.setRegs_w (v : Working) :
    (s.setRegs v).w = s.w := (rfl)
@[simp] theorem State.setRegs_seq (v : Working) :
    (s.setRegs v).seq = s.seq := (rfl)
@[simp] theorem State.setRegs_blk (v : Working) :
    (s.setRegs v).blk = s.blk := (rfl)
@[simp] theorem State.setRegs_busy (v : Working) :
    (s.setRegs v).busy = s.busy := (rfl)
@[simp] theorem State.setRegs_done (v : Working) :
    (s.setRegs v).done = s.done := (rfl)
@[simp] theorem State.setRegs_fault (v : Working) :
    (s.setRegs v).fault = s.fault := (rfl)
@[simp] theorem State.setRegs_lenerr (v : Working) :
    (s.setRegs v).lenerr = s.lenerr := (rfl)
@[simp] theorem State.setRegs_fcode (v : Working) :
    (s.setRegs v).fcode = s.fcode := (rfl)
@[simp] theorem State.setRegs_len (v : Working) :
    (s.setRegs v).len = s.len := (rfl)
@[simp] theorem State.setRegs_msg (v : Working) :
    (s.setRegs v).msg = s.msg := (rfl)
@[simp] theorem State.setRegs_digest (v : Working) :
    (s.setRegs v).digest = s.digest := (rfl)
@[simp] theorem State.setRegs_msgCap (v : Working) :
    (s.setRegs v).msgCap = s.msgCap := (rfl)
@[simp] theorem State.setRegs_inbox (v : Working) :
    (s.setRegs v).inbox = s.inbox := (rfl)
@[simp] theorem State.setRegs_rdata (v : Working) :
    (s.setRegs v).rdata = s.rdata := (rfl)
@[simp] theorem State.setRegs_resets (v : Working) :
    (s.setRegs v).resets = s.resets := (rfl)
@[simp] theorem State.setRegs_starts (v : Working) :
    (s.setRegs v).starts = s.starts := (rfl)

@[simp] theorem State.setAcc_regs (v : Acc) :
    (s.setAcc v).regs = s.regs := (rfl)
@[simp] theorem State.setAcc_h (v : Acc) :
    (s.setAcc v).h = v := (rfl)
@[simp] theorem State.setAcc_w (v : Acc) :
    (s.setAcc v).w = s.w := (rfl)
@[simp] theorem State.setAcc_seq (v : Acc) :
    (s.setAcc v).seq = s.seq := (rfl)
@[simp] theorem State.setAcc_blk (v : Acc) :
    (s.setAcc v).blk = s.blk := (rfl)
@[simp] theorem State.setAcc_busy (v : Acc) :
    (s.setAcc v).busy = s.busy := (rfl)
@[simp] theorem State.setAcc_done (v : Acc) :
    (s.setAcc v).done = s.done := (rfl)
@[simp] theorem State.setAcc_fault (v : Acc) :
    (s.setAcc v).fault = s.fault := (rfl)
@[simp] theorem State.setAcc_lenerr (v : Acc) :
    (s.setAcc v).lenerr = s.lenerr := (rfl)
@[simp] theorem State.setAcc_fcode (v : Acc) :
    (s.setAcc v).fcode = s.fcode := (rfl)
@[simp] theorem State.setAcc_len (v : Acc) :
    (s.setAcc v).len = s.len := (rfl)
@[simp] theorem State.setAcc_msg (v : Acc) :
    (s.setAcc v).msg = s.msg := (rfl)
@[simp] theorem State.setAcc_digest (v : Acc) :
    (s.setAcc v).digest = s.digest := (rfl)
@[simp] theorem State.setAcc_msgCap (v : Acc) :
    (s.setAcc v).msgCap = s.msgCap := (rfl)
@[simp] theorem State.setAcc_inbox (v : Acc) :
    (s.setAcc v).inbox = s.inbox := (rfl)
@[simp] theorem State.setAcc_rdata (v : Acc) :
    (s.setAcc v).rdata = s.rdata := (rfl)
@[simp] theorem State.setAcc_resets (v : Acc) :
    (s.setAcc v).resets = s.resets := (rfl)
@[simp] theorem State.setAcc_starts (v : Acc) :
    (s.setAcc v).starts = s.starts := (rfl)

@[simp] theorem State.setSeq_regs (p : Phase) (idx : BitVec 7) :
    (s.setSeq p idx).regs = s.regs := (rfl)
@[simp] theorem State.setSeq_h (p : Phase) (idx : BitVec 7) :
    (s.setSeq p idx).h = s.h := (rfl)
@[simp] theorem State.setSeq_w (p : Phase) (idx : BitVec 7) :
    (s.setSeq p idx).w = s.w := (rfl)
@[simp] theorem State.setSeq_seq (p : Phase) (idx : BitVec 7) :
    (s.setSeq p idx).seq = seqWord p idx := (rfl)
@[simp] theorem State.setSeq_blk (p : Phase) (idx : BitVec 7) :
    (s.setSeq p idx).blk = s.blk := (rfl)
@[simp] theorem State.setSeq_busy (p : Phase) (idx : BitVec 7) :
    (s.setSeq p idx).busy = s.busy := (rfl)
@[simp] theorem State.setSeq_done (p : Phase) (idx : BitVec 7) :
    (s.setSeq p idx).done = s.done := (rfl)
@[simp] theorem State.setSeq_fault (p : Phase) (idx : BitVec 7) :
    (s.setSeq p idx).fault = s.fault := (rfl)
@[simp] theorem State.setSeq_lenerr (p : Phase) (idx : BitVec 7) :
    (s.setSeq p idx).lenerr = s.lenerr := (rfl)
@[simp] theorem State.setSeq_fcode (p : Phase) (idx : BitVec 7) :
    (s.setSeq p idx).fcode = s.fcode := (rfl)
@[simp] theorem State.setSeq_len (p : Phase) (idx : BitVec 7) :
    (s.setSeq p idx).len = s.len := (rfl)
@[simp] theorem State.setSeq_msg (p : Phase) (idx : BitVec 7) :
    (s.setSeq p idx).msg = s.msg := (rfl)
@[simp] theorem State.setSeq_digest (p : Phase) (idx : BitVec 7) :
    (s.setSeq p idx).digest = s.digest := (rfl)
@[simp] theorem State.setSeq_msgCap (p : Phase) (idx : BitVec 7) :
    (s.setSeq p idx).msgCap = s.msgCap := (rfl)
@[simp] theorem State.setSeq_inbox (p : Phase) (idx : BitVec 7) :
    (s.setSeq p idx).inbox = s.inbox := (rfl)
@[simp] theorem State.setSeq_rdata (p : Phase) (idx : BitVec 7) :
    (s.setSeq p idx).rdata = s.rdata := (rfl)
@[simp] theorem State.setSeq_resets (p : Phase) (idx : BitVec 7) :
    (s.setSeq p idx).resets = s.resets := (rfl)
@[simp] theorem State.setSeq_starts (p : Phase) (idx : BitVec 7) :
    (s.setSeq p idx).starts = s.starts := (rfl)

@[simp] theorem State.setBlk_regs (n : Nat) :
    (s.setBlk n).regs = s.regs := (rfl)
@[simp] theorem State.setBlk_h (n : Nat) :
    (s.setBlk n).h = s.h := (rfl)
@[simp] theorem State.setBlk_w (n : Nat) :
    (s.setBlk n).w = s.w := (rfl)
@[simp] theorem State.setBlk_seq (n : Nat) :
    (s.setBlk n).seq = s.seq := (rfl)
@[simp] theorem State.setBlk_blk (n : Nat) :
    (s.setBlk n).blk = n := (rfl)
@[simp] theorem State.setBlk_busy (n : Nat) :
    (s.setBlk n).busy = s.busy := (rfl)
@[simp] theorem State.setBlk_done (n : Nat) :
    (s.setBlk n).done = s.done := (rfl)
@[simp] theorem State.setBlk_fault (n : Nat) :
    (s.setBlk n).fault = s.fault := (rfl)
@[simp] theorem State.setBlk_lenerr (n : Nat) :
    (s.setBlk n).lenerr = s.lenerr := (rfl)
@[simp] theorem State.setBlk_fcode (n : Nat) :
    (s.setBlk n).fcode = s.fcode := (rfl)
@[simp] theorem State.setBlk_len (n : Nat) :
    (s.setBlk n).len = s.len := (rfl)
@[simp] theorem State.setBlk_msg (n : Nat) :
    (s.setBlk n).msg = s.msg := (rfl)
@[simp] theorem State.setBlk_digest (n : Nat) :
    (s.setBlk n).digest = s.digest := (rfl)
@[simp] theorem State.setBlk_msgCap (n : Nat) :
    (s.setBlk n).msgCap = s.msgCap := (rfl)
@[simp] theorem State.setBlk_inbox (n : Nat) :
    (s.setBlk n).inbox = s.inbox := (rfl)
@[simp] theorem State.setBlk_rdata (n : Nat) :
    (s.setBlk n).rdata = s.rdata := (rfl)
@[simp] theorem State.setBlk_resets (n : Nat) :
    (s.setBlk n).resets = s.resets := (rfl)
@[simp] theorem State.setBlk_starts (n : Nat) :
    (s.setBlk n).starts = s.starts := (rfl)

@[simp] theorem State.setLen_regs (v : BitVec 64) :
    (s.setLen v).regs = s.regs := (rfl)
@[simp] theorem State.setLen_h (v : BitVec 64) :
    (s.setLen v).h = s.h := (rfl)
@[simp] theorem State.setLen_w (v : BitVec 64) :
    (s.setLen v).w = s.w := (rfl)
@[simp] theorem State.setLen_seq (v : BitVec 64) :
    (s.setLen v).seq = s.seq := (rfl)
@[simp] theorem State.setLen_blk (v : BitVec 64) :
    (s.setLen v).blk = s.blk := (rfl)
@[simp] theorem State.setLen_busy (v : BitVec 64) :
    (s.setLen v).busy = s.busy := (rfl)
@[simp] theorem State.setLen_done (v : BitVec 64) :
    (s.setLen v).done = s.done := (rfl)
@[simp] theorem State.setLen_fault (v : BitVec 64) :
    (s.setLen v).fault = s.fault := (rfl)
@[simp] theorem State.setLen_lenerr (v : BitVec 64) :
    (s.setLen v).lenerr = s.lenerr := (rfl)
@[simp] theorem State.setLen_fcode (v : BitVec 64) :
    (s.setLen v).fcode = s.fcode := (rfl)
@[simp] theorem State.setLen_len (v : BitVec 64) :
    (s.setLen v).len = v := (rfl)
@[simp] theorem State.setLen_msg (v : BitVec 64) :
    (s.setLen v).msg = s.msg := (rfl)
@[simp] theorem State.setLen_digest (v : BitVec 64) :
    (s.setLen v).digest = s.digest := (rfl)
@[simp] theorem State.setLen_msgCap (v : BitVec 64) :
    (s.setLen v).msgCap = s.msgCap := (rfl)
@[simp] theorem State.setLen_inbox (v : BitVec 64) :
    (s.setLen v).inbox = s.inbox := (rfl)
@[simp] theorem State.setLen_rdata (v : BitVec 64) :
    (s.setLen v).rdata = s.rdata := (rfl)
@[simp] theorem State.setLen_resets (v : BitVec 64) :
    (s.setLen v).resets = s.resets := (rfl)
@[simp] theorem State.setLen_starts (v : BitVec 64) :
    (s.setLen v).starts = s.starts := (rfl)

@[simp] theorem State.setRdata_regs (v : BitVec 64) :
    (s.setRdata v).regs = s.regs := (rfl)
@[simp] theorem State.setRdata_h (v : BitVec 64) :
    (s.setRdata v).h = s.h := (rfl)
@[simp] theorem State.setRdata_w (v : BitVec 64) :
    (s.setRdata v).w = s.w := (rfl)
@[simp] theorem State.setRdata_seq (v : BitVec 64) :
    (s.setRdata v).seq = s.seq := (rfl)
@[simp] theorem State.setRdata_blk (v : BitVec 64) :
    (s.setRdata v).blk = s.blk := (rfl)
@[simp] theorem State.setRdata_busy (v : BitVec 64) :
    (s.setRdata v).busy = s.busy := (rfl)
@[simp] theorem State.setRdata_done (v : BitVec 64) :
    (s.setRdata v).done = s.done := (rfl)
@[simp] theorem State.setRdata_fault (v : BitVec 64) :
    (s.setRdata v).fault = s.fault := (rfl)
@[simp] theorem State.setRdata_lenerr (v : BitVec 64) :
    (s.setRdata v).lenerr = s.lenerr := (rfl)
@[simp] theorem State.setRdata_fcode (v : BitVec 64) :
    (s.setRdata v).fcode = s.fcode := (rfl)
@[simp] theorem State.setRdata_len (v : BitVec 64) :
    (s.setRdata v).len = s.len := (rfl)
@[simp] theorem State.setRdata_msg (v : BitVec 64) :
    (s.setRdata v).msg = s.msg := (rfl)
@[simp] theorem State.setRdata_digest (v : BitVec 64) :
    (s.setRdata v).digest = s.digest := (rfl)
@[simp] theorem State.setRdata_msgCap (v : BitVec 64) :
    (s.setRdata v).msgCap = s.msgCap := (rfl)
@[simp] theorem State.setRdata_inbox (v : BitVec 64) :
    (s.setRdata v).inbox = s.inbox := (rfl)
@[simp] theorem State.setRdata_rdata (v : BitVec 64) :
    (s.setRdata v).rdata = v := (rfl)
@[simp] theorem State.setRdata_resets (v : BitVec 64) :
    (s.setRdata v).resets = s.resets := (rfl)
@[simp] theorem State.setRdata_starts (v : BitVec 64) :
    (s.setRdata v).starts = s.starts := (rfl)

@[simp] theorem State.publish_regs (v : Vector Byte 20) :
    (s.publish v).regs = s.regs := (rfl)
@[simp] theorem State.publish_h (v : Vector Byte 20) :
    (s.publish v).h = s.h := (rfl)
@[simp] theorem State.publish_w (v : Vector Byte 20) :
    (s.publish v).w = s.w := (rfl)
@[simp] theorem State.publish_seq (v : Vector Byte 20) :
    (s.publish v).seq = s.seq := (rfl)
@[simp] theorem State.publish_blk (v : Vector Byte 20) :
    (s.publish v).blk = s.blk := (rfl)
@[simp] theorem State.publish_busy (v : Vector Byte 20) :
    (s.publish v).busy = false := (rfl)
@[simp] theorem State.publish_done (v : Vector Byte 20) :
    (s.publish v).done = true := (rfl)
@[simp] theorem State.publish_fault (v : Vector Byte 20) :
    (s.publish v).fault = s.fault := (rfl)
@[simp] theorem State.publish_lenerr (v : Vector Byte 20) :
    (s.publish v).lenerr = s.lenerr := (rfl)
@[simp] theorem State.publish_fcode (v : Vector Byte 20) :
    (s.publish v).fcode = s.fcode := (rfl)
@[simp] theorem State.publish_len (v : Vector Byte 20) :
    (s.publish v).len = s.len := (rfl)
@[simp] theorem State.publish_msg (v : Vector Byte 20) :
    (s.publish v).msg = s.msg := (rfl)
@[simp] theorem State.publish_digest (v : Vector Byte 20) :
    (s.publish v).digest = v := (rfl)
@[simp] theorem State.publish_msgCap (v : Vector Byte 20) :
    (s.publish v).msgCap = s.msgCap := (rfl)
@[simp] theorem State.publish_inbox (v : Vector Byte 20) :
    (s.publish v).inbox = s.inbox := (rfl)
@[simp] theorem State.publish_rdata (v : Vector Byte 20) :
    (s.publish v).rdata = s.rdata := (rfl)
@[simp] theorem State.publish_resets (v : Vector Byte 20) :
    (s.publish v).resets = s.resets := (rfl)
@[simp] theorem State.publish_starts (v : Vector Byte 20) :
    (s.publish v).starts = s.starts := (rfl)

@[simp] theorem State.clearResult_regs :
    (s.clearResult).regs = s.regs := (rfl)
@[simp] theorem State.clearResult_h :
    (s.clearResult).h = s.h := (rfl)
@[simp] theorem State.clearResult_w :
    (s.clearResult).w = s.w := (rfl)
@[simp] theorem State.clearResult_seq :
    (s.clearResult).seq = s.seq := (rfl)
@[simp] theorem State.clearResult_blk :
    (s.clearResult).blk = s.blk := (rfl)
@[simp] theorem State.clearResult_busy :
    (s.clearResult).busy = s.busy := (rfl)
@[simp] theorem State.clearResult_done :
    (s.clearResult).done = false := (rfl)
@[simp] theorem State.clearResult_fault :
    (s.clearResult).fault = s.fault := (rfl)
@[simp] theorem State.clearResult_lenerr :
    (s.clearResult).lenerr = false := (rfl)
@[simp] theorem State.clearResult_fcode :
    (s.clearResult).fcode = s.fcode := (rfl)
@[simp] theorem State.clearResult_len :
    (s.clearResult).len = s.len := (rfl)
@[simp] theorem State.clearResult_msg :
    (s.clearResult).msg = s.msg := (rfl)
@[simp] theorem State.clearResult_digest :
    (s.clearResult).digest = s.digest := (rfl)
@[simp] theorem State.clearResult_msgCap :
    (s.clearResult).msgCap = s.msgCap := (rfl)
@[simp] theorem State.clearResult_inbox :
    (s.clearResult).inbox = s.inbox := (rfl)
@[simp] theorem State.clearResult_rdata :
    (s.clearResult).rdata = s.rdata := (rfl)
@[simp] theorem State.clearResult_resets :
    (s.clearResult).resets = s.resets := (rfl)
@[simp] theorem State.clearResult_starts :
    (s.clearResult).starts = s.starts + 1 := (rfl)

@[simp] theorem State.beginRun_regs :
    (s.beginRun).regs = s.regs := (rfl)
@[simp] theorem State.beginRun_h :
    (s.beginRun).h = s.h := (rfl)
@[simp] theorem State.beginRun_w :
    (s.beginRun).w = s.w := (rfl)
@[simp] theorem State.beginRun_seq :
    (s.beginRun).seq = seqWord .init 0 := (rfl)
@[simp] theorem State.beginRun_blk :
    (s.beginRun).blk = s.blk := (rfl)
@[simp] theorem State.beginRun_busy :
    (s.beginRun).busy = true := (rfl)
@[simp] theorem State.beginRun_done :
    (s.beginRun).done = s.done := (rfl)
@[simp] theorem State.beginRun_fault :
    (s.beginRun).fault = s.fault := (rfl)
@[simp] theorem State.beginRun_lenerr :
    (s.beginRun).lenerr = s.lenerr := (rfl)
@[simp] theorem State.beginRun_fcode :
    (s.beginRun).fcode = s.fcode := (rfl)
@[simp] theorem State.beginRun_len :
    (s.beginRun).len = s.len := (rfl)
@[simp] theorem State.beginRun_msg :
    (s.beginRun).msg = s.msg := (rfl)
@[simp] theorem State.beginRun_digest :
    (s.beginRun).digest = s.digest := (rfl)
@[simp] theorem State.beginRun_msgCap :
    (s.beginRun).msgCap = s.msgCap := (rfl)
@[simp] theorem State.beginRun_inbox :
    (s.beginRun).inbox = s.inbox := (rfl)
@[simp] theorem State.beginRun_rdata :
    (s.beginRun).rdata = s.rdata := (rfl)
@[simp] theorem State.beginRun_resets :
    (s.beginRun).resets = s.resets := (rfl)
@[simp] theorem State.beginRun_starts :
    (s.beginRun).starts = s.starts := (rfl)

@[simp] theorem State.markLenErr_regs :
    (s.markLenErr).regs = s.regs := (rfl)
@[simp] theorem State.markLenErr_h :
    (s.markLenErr).h = s.h := (rfl)
@[simp] theorem State.markLenErr_w :
    (s.markLenErr).w = s.w := (rfl)
@[simp] theorem State.markLenErr_seq :
    (s.markLenErr).seq = s.seq := (rfl)
@[simp] theorem State.markLenErr_blk :
    (s.markLenErr).blk = s.blk := (rfl)
@[simp] theorem State.markLenErr_busy :
    (s.markLenErr).busy = s.busy := (rfl)
@[simp] theorem State.markLenErr_done :
    (s.markLenErr).done = s.done := (rfl)
@[simp] theorem State.markLenErr_fault :
    (s.markLenErr).fault = s.fault := (rfl)
@[simp] theorem State.markLenErr_lenerr :
    (s.markLenErr).lenerr = true := (rfl)
@[simp] theorem State.markLenErr_fcode :
    (s.markLenErr).fcode = s.fcode := (rfl)
@[simp] theorem State.markLenErr_len :
    (s.markLenErr).len = s.len := (rfl)
@[simp] theorem State.markLenErr_msg :
    (s.markLenErr).msg = s.msg := (rfl)
@[simp] theorem State.markLenErr_digest :
    (s.markLenErr).digest = s.digest := (rfl)
@[simp] theorem State.markLenErr_msgCap :
    (s.markLenErr).msgCap = s.msgCap := (rfl)
@[simp] theorem State.markLenErr_inbox :
    (s.markLenErr).inbox = s.inbox := (rfl)
@[simp] theorem State.markLenErr_rdata :
    (s.markLenErr).rdata = s.rdata := (rfl)
@[simp] theorem State.markLenErr_resets :
    (s.markLenErr).resets = s.resets := (rfl)
@[simp] theorem State.markLenErr_starts :
    (s.markLenErr).starts = s.starts := (rfl)

@[simp] theorem State.setInbox_regs (q : List Input) :
    (s.setInbox q).regs = s.regs := (rfl)
@[simp] theorem State.setInbox_h (q : List Input) :
    (s.setInbox q).h = s.h := (rfl)
@[simp] theorem State.setInbox_w (q : List Input) :
    (s.setInbox q).w = s.w := (rfl)
@[simp] theorem State.setInbox_seq (q : List Input) :
    (s.setInbox q).seq = s.seq := (rfl)
@[simp] theorem State.setInbox_blk (q : List Input) :
    (s.setInbox q).blk = s.blk := (rfl)
@[simp] theorem State.setInbox_busy (q : List Input) :
    (s.setInbox q).busy = s.busy := (rfl)
@[simp] theorem State.setInbox_done (q : List Input) :
    (s.setInbox q).done = s.done := (rfl)
@[simp] theorem State.setInbox_fault (q : List Input) :
    (s.setInbox q).fault = s.fault := (rfl)
@[simp] theorem State.setInbox_lenerr (q : List Input) :
    (s.setInbox q).lenerr = s.lenerr := (rfl)
@[simp] theorem State.setInbox_fcode (q : List Input) :
    (s.setInbox q).fcode = s.fcode := (rfl)
@[simp] theorem State.setInbox_len (q : List Input) :
    (s.setInbox q).len = s.len := (rfl)
@[simp] theorem State.setInbox_msg (q : List Input) :
    (s.setInbox q).msg = s.msg := (rfl)
@[simp] theorem State.setInbox_digest (q : List Input) :
    (s.setInbox q).digest = s.digest := (rfl)
@[simp] theorem State.setInbox_msgCap (q : List Input) :
    (s.setInbox q).msgCap = s.msgCap := (rfl)
@[simp] theorem State.setInbox_inbox (q : List Input) :
    (s.setInbox q).inbox = q := (rfl)
@[simp] theorem State.setInbox_rdata (q : List Input) :
    (s.setInbox q).rdata = s.rdata := (rfl)
@[simp] theorem State.setInbox_resets (q : List Input) :
    (s.setInbox q).resets = s.resets := (rfl)
@[simp] theorem State.setInbox_starts (q : List Input) :
    (s.setInbox q).starts = s.starts := (rfl)

@[simp] theorem raiseFault_regs (c : FaultCode) :
    (raiseFault c s).regs = s.regs := (rfl)
@[simp] theorem raiseFault_h (c : FaultCode) :
    (raiseFault c s).h = s.h := (rfl)
@[simp] theorem raiseFault_w (c : FaultCode) :
    (raiseFault c s).w = s.w := (rfl)
@[simp] theorem raiseFault_seq (c : FaultCode) :
    (raiseFault c s).seq = s.seq := (rfl)
@[simp] theorem raiseFault_blk (c : FaultCode) :
    (raiseFault c s).blk = s.blk := (rfl)
@[simp] theorem raiseFault_busy (c : FaultCode) :
    (raiseFault c s).busy = false := (rfl)
@[simp] theorem raiseFault_done (c : FaultCode) :
    (raiseFault c s).done = s.done := (rfl)
@[simp] theorem raiseFault_fault (c : FaultCode) :
    (raiseFault c s).fault = true := (rfl)
@[simp] theorem raiseFault_lenerr (c : FaultCode) :
    (raiseFault c s).lenerr = s.lenerr := (rfl)
@[simp] theorem raiseFault_fcode (c : FaultCode) :
    (raiseFault c s).fcode = c.code := (rfl)
@[simp] theorem raiseFault_len (c : FaultCode) :
    (raiseFault c s).len = s.len := (rfl)
@[simp] theorem raiseFault_msg (c : FaultCode) :
    (raiseFault c s).msg = s.msg := (rfl)
@[simp] theorem raiseFault_digest (c : FaultCode) :
    (raiseFault c s).digest = s.digest := (rfl)
@[simp] theorem raiseFault_msgCap (c : FaultCode) :
    (raiseFault c s).msgCap = s.msgCap := (rfl)
@[simp] theorem raiseFault_inbox (c : FaultCode) :
    (raiseFault c s).inbox = s.inbox := (rfl)
@[simp] theorem raiseFault_rdata (c : FaultCode) :
    (raiseFault c s).rdata = s.rdata := (rfl)
@[simp] theorem raiseFault_resets (c : FaultCode) :
    (raiseFault c s).resets = s.resets := (rfl)
@[simp] theorem raiseFault_starts (c : FaultCode) :
    (raiseFault c s).starts = s.starts := (rfl)

@[simp] theorem applyReset_regs :
    (applyReset s).regs = (State.launch s.msgCap).regs := (rfl)
@[simp] theorem applyReset_h :
    (applyReset s).h = (State.launch s.msgCap).h := (rfl)
@[simp] theorem applyReset_w :
    (applyReset s).w = (State.launch s.msgCap).w := (rfl)
@[simp] theorem applyReset_seq :
    (applyReset s).seq = (State.launch s.msgCap).seq := (rfl)
@[simp] theorem applyReset_blk :
    (applyReset s).blk = (State.launch s.msgCap).blk := (rfl)
@[simp] theorem applyReset_busy :
    (applyReset s).busy = (State.launch s.msgCap).busy := (rfl)
@[simp] theorem applyReset_done :
    (applyReset s).done = (State.launch s.msgCap).done := (rfl)
@[simp] theorem applyReset_fault :
    (applyReset s).fault = (State.launch s.msgCap).fault := (rfl)
@[simp] theorem applyReset_lenerr :
    (applyReset s).lenerr = (State.launch s.msgCap).lenerr := (rfl)
@[simp] theorem applyReset_fcode :
    (applyReset s).fcode = (State.launch s.msgCap).fcode := (rfl)
@[simp] theorem applyReset_len :
    (applyReset s).len = (State.launch s.msgCap).len := (rfl)
@[simp] theorem applyReset_msg :
    (applyReset s).msg = (State.launch s.msgCap).msg := (rfl)
@[simp] theorem applyReset_digest :
    (applyReset s).digest = (State.launch s.msgCap).digest := (rfl)
@[simp] theorem applyReset_msgCap :
    (applyReset s).msgCap = (State.launch s.msgCap).msgCap := (rfl)
@[simp] theorem applyReset_inbox :
    (applyReset s).inbox = s.inbox := (rfl)
@[simp] theorem applyReset_rdata :
    (applyReset s).rdata = s.rdata := (rfl)
@[simp] theorem applyReset_resets :
    (applyReset s).resets = s.resets + 1 := (rfl)
@[simp] theorem applyReset_starts :
    (applyReset s).starts = (State.launch s.msgCap).starts := (rfl)

end Sys2Proof.Machine
end

