-- ==== Sys2Proof/Laws/Memory.lean ====
section
/-! SUPPORT. The message memory: a read after a write gives the value written, a write leaves every other address alone,
and every memory operation keeps the canonical form and the address range. -/

namespace Sys2Proof.Machine

theorem Memory.get_set_same (m : Memory) (k : Nat) (v : Byte) : Memory.get (Memory.set m k v) k = some v := by
  induction m with
  | nil => simp [Memory.set, Memory.get]
  | cons c m ih =>
    obtain ⟨a, u⟩ := c
    simp only [Memory.set]
    split
    · simp [Memory.get]
    · split
      · simp [Memory.get]
      · simp [Memory.get, *]

theorem Memory.get_set_other (m : Memory) {k j : Nat} (v : Byte) (h : j ≠ k) :
    Memory.get (Memory.set m k v) j = Memory.get m j := by
  induction m with
  | nil => simp [Memory.set, Memory.get, h]
  | cons c m ih =>
    obtain ⟨a, u⟩ := c
    simp only [Memory.set]
    split
    · simp [Memory.get, h]
    · split
      · rename_i hka
        simp [Memory.get, h, ← hka]
      · simp only [Memory.get, ih]

theorem Memory.risingFrom_set (m : Memory) (lo k : Nat) (v : Byte) (hk : lo ≤ k)
    (hm : Memory.risingFrom lo m = true) : Memory.risingFrom lo (Memory.set m k v) = true := by
  induction m generalizing lo with
  | nil => simp [Memory.set, Memory.risingFrom, hk]
  | cons c m ih =>
    obtain ⟨a, u⟩ := c
    simp only [Memory.risingFrom, Bool.and_eq_true, decide_eq_true_eq] at hm
    simp only [Memory.set]
    split
    · simp [Memory.risingFrom, hk, hm.2]; omega
    · split
      · rename_i hka
        simp [Memory.risingFrom, hka, hm.1, hm.2]
      · simp [Memory.risingFrom, hm.1, ih (a + 1) (by omega) hm.2]

/-- A write keeps the canonical form. -/
theorem Memory.wf_set (m : Memory) (k : Nat) (v : Byte) (hm : Memory.wf m = true) :
    Memory.wf (Memory.set m k v) = true :=
  Memory.risingFrom_set m 0 k v (Nat.zero_le k) hm

/-- A write inside the address range keeps the list inside it. -/
theorem Memory.inside_set (m : Memory) (cap k : Nat) (v : Byte) (hk : k < cap)
    (hm : Memory.inside cap m = true) : Memory.inside cap (Memory.set m k v) = true := by
  induction m with
  | nil => simp [Memory.set, Memory.inside, hk]
  | cons c m ih =>
    obtain ⟨a, u⟩ := c
    simp only [Memory.inside, List.all_cons, Bool.and_eq_true, decide_eq_true_eq] at hm ih
    simp only [Memory.set]
    split
    · simp [Memory.inside, hk, hm.1]; simpa using hm.2
    · split
      · simp [Memory.inside, hk]; simpa using hm.2
      · simp only [Memory.inside, List.all_cons, Bool.and_eq_true, decide_eq_true_eq]
        exact ⟨hm.1, ih hm.2⟩

/-- The empty memory, which reset leaves, is in canonical form. -/
@[simp] theorem Memory.wf_nil : Memory.wf [] = true := rfl

@[simp] theorem Memory.inside_nil (cap : Nat) : Memory.inside cap [] = true := rfl

@[simp] theorem State.readMsg_writeMsg_same (s : State) (k : Nat) (v : Byte) :
    (s.writeMsg k v).readMsg k = v := by
  simp [State.readMsg, Memory.get_set_same]

theorem State.readMsg_writeMsg_other (s : State) {k j : Nat} (v : Byte) (h : j ≠ k) :
    (s.writeMsg k v).readMsg j = s.readMsg j := by
  simp [State.readMsg, Memory.get_set_other _ _ h]

/-- Every two states with the same message memory and reset count read the same bytes. -/
theorem State.readMsg_congr {s t : State} (hm : t.msg = s.msg) (hr : t.resets = s.resets) :
    t.readMsg = s.readMsg := by
  funext a; simp [State.readMsg, hm, hr]

end Sys2Proof.Machine
end

