-- ==== Sys2Proof/Laws/Ops.lean ====
section
/-! SUPPORT. One lemma for each shared operation, saying once what it can do: the control word's fields, the schedule
buffer, the padded message, the start command, and the turns of the two agents. -/

namespace Sys2Proof

@[simp] theorem phaseOfCode_code (p : Phase) : phaseOfCode p.code = p := by cases p <;> rfl

@[simp] theorem seqPhase_seqWord (p : Phase) (idx : BitVec 7) : seqPhase (seqWord p idx) = p := by
  revert idx; cases p <;> decide

@[simp] theorem seqIdx_seqWord (p : Phase) (idx : BitVec 7) : seqIdx (seqWord p idx) = idx := by
  revert idx; cases p <;> decide

/-- Every control word is the word of its own fields. -/
theorem seqWord_fields (q : BitVec 10) : seqWord (seqPhase q) (seqIdx q) = q := by
  revert q; decide

/-- The value of a control word: `phase * 128 + idx` (R47). -/
theorem seqWord_eq_ofNat (p : Phase) (idx : BitVec 7) :
    seqWord p idx = BitVec.ofNat 10 (p.code.toNat * 128 + idx.toNat) := by
  revert idx; cases p <;> decide

/-- The control word of the next index, where it does not wrap. -/
theorem seqWord_succ (p : Phase) (idx : BitVec 7) (h : idx.toNat < 127) :
    seqWord p (idx + 1) = BitVec.ofNat 10 (p.code.toNat * 128 + (idx.toNat + 1)) := by
  rw [seqWord_eq_ofNat, BitVec.toNat_add, Nat.mod_eq_of_lt (by simp; omega)]
  rfl

/-- The decode of R48 by phase and index. -/
theorem decodeSeq_seqWord (p : Phase) (idx : BitVec 7) :
    decodeSeq (seqWord p idx) =
      match p with
      | .idle => decodePlain idx .idle
      | .init => decodePlain idx .init
      | .ldw => if idx.toNat ≤ 15 then .ok (.ldw idx) else .error .seqReserved
      | .exp => if 16 ≤ idx.toNat ∧ idx.toNat ≤ 79 then .ok (.exp idx) else .error .seqReserved
      | .binit => decodePlain idx .binit
      | .rnd => decodeRound idx
      | .acc => decodePlain idx .acc
      | .out => decodePlain idx .out := by
  cases p <;> simp only [decodeSeq, seqPhase_seqWord, seqIdx_seqWord]

namespace Machine

/-- `rotl32` is the library's rotation, for every amount below the width. -/
theorem rotl32_eq_rotateLeft (x : Word) (n : Nat) (h : n < 32) : rotl32 x n = x.rotateLeft n := by
  simp [rotl32, BitVec.rotateLeft, BitVec.rotateLeftAux, Nat.mod_eq_of_lt h]

theorem State.readW_setW (s : State) (i j : Nat) (v : Word) :
    (s.setW i v).readW j = if j = i ∧ i < 80 then v else s.readW j := by
  simp only [State.readW, State.setW, Vector.getD, Vector.setIfInBounds, Array.getD]
  simp only [Vector.size_toArray]
  by_cases hj : j < 80
  · by_cases hji : j = i
    · subst hji; simp [hj]
    · simp [hj, hji, Ne.symm hji]
  · have : ¬ (j = i ∧ i < 80) := by omega
    simp [hj, this]

theorem State.readW_setW_same (s : State) {i : Nat} (v : Word) (h : i < 80) : (s.setW i v).readW i = v := by
  simp [State.readW_setW, h]

theorem State.readW_setW_other (s : State) {i j : Nat} (v : Word) (h : j ≠ i) :
    (s.setW i v).readW j = s.readW j := by
  simp [State.readW_setW, h]

/-- `P(L)` is above `L + 8`, a multiple of 64, and at most `L + 72`. -/
theorem padLen_bounds (l : Nat) : l + 9 ≤ padLen l ∧ padLen l ≤ l + 72 ∧ padLen l % 64 = 0 := by
  unfold padLen; omega

theorem padLen_eq_nblk (l : Nat) : padLen l = 64 * nblk l := by
  unfold nblk padLen; omega

/-- `PadByte(j)` exists exactly below `P(L)`. -/
theorem padByteOf_isSome (l : Nat) (msg : Nat → Byte) (j : Nat) :
    (padByteOf l msg j).isSome = decide (j < padLen l) := by
  have := padLen_bounds l
  unfold padByteOf
  split
  · simp; omega
  · split
    · simp; omega
    · split
      · simp; omega
      · split <;> simp [*]

/-- The word at an address exists exactly if its last byte does. -/
theorem padWord_isSome (s : State) (base : Nat) :
    (padWord s base).isSome = decide (base + 3 < padLen s.len.toNat) := by
  have h0 := padByteOf_isSome s.len.toNat s.readMsg base
  have h1 := padByteOf_isSome s.len.toNat s.readMsg (base + 1)
  have h2 := padByteOf_isSome s.len.toNat s.readMsg (base + 2)
  have h3 := padByteOf_isSome s.len.toNat s.readMsg (base + 3)
  simp only [padWord, padByte]
  by_cases h : base + 3 < padLen s.len.toNat
  · have e0 : base < padLen s.len.toNat := by omega
    have e1 : base + 1 < padLen s.len.toNat := by omega
    have e2 : base + 2 < padLen s.len.toNat := by omega
    simp only [e0, e1, e2, h, decide_true, Option.isSome_iff_exists] at h0 h1 h2 h3
    obtain ⟨b0, h0⟩ := h0
    obtain ⟨b1, h1⟩ := h1
    obtain ⟨b2, h2⟩ := h2
    obtain ⟨b3, h3⟩ := h3
    simp [h0, h1, h2, h3, h]
  · simp only [h, decide_false, Option.isSome_eq_false_iff, Option.isNone_iff_eq_none] at h3
    simp [h3, h]

/-- A start is accepted or refused, by the length alone. -/
theorem startRun_cases (s : State) :
    (lenAccepted s = true ∧ startRun s = s.clearResult.beginRun) ∨
    (lenAccepted s = false ∧ startRun s = s.clearResult.markLenErr) := by
  unfold startRun
  cases h : lenAccepted s <;> simp

/-- The core's turn: no step, `IDLE`, a micro-operation, or the fault the decode demands. -/
theorem coreTurn_cases (s : State) :
    (s.fault = true ∧ coreTurn s = .next s) ∨
    (s.fault = false ∧ s.busy = false ∧ coreTurn s = .next s) ∨
    (s.fault = false ∧ s.busy = true ∧ ∃ i, decodeSeq s.seq = .ok i ∧ coreTurn s = exec i s) ∨
    (s.fault = false ∧ s.busy = true ∧ ∃ r, decodeSeq s.seq = .error r ∧
      coreTurn s = .next (raiseFault (faultOfReject r) s)) := by
  unfold coreTurn
  cases hf : s.fault
  · cases hb : s.busy
    · simp [exec, execIdle, hb]
    · cases hd : decodeSeq s.seq <;> simp
  · simp

/-- The host's turn: the decoded transaction, or a reserved one. -/
theorem hostTurn_cases (t : HostTxn) (s : State) :
    (∃ i, decodeHost t = .ok i ∧ hostTurn t s = exec i s) ∨
    (∃ r, decodeHost t = .error r ∧ hostTurn t s = .next (reservedTxn t s)) := by
  unfold hostTurn
  cases hd : decodeHost t <;> simp

/-- One turn, by the head of the queue. -/
theorem takeTurn_cases (s : State) :
    (s.inbox = [] ∧ s.fault = true ∧ takeTurn s = .fault .halted) ∨
    (s.inbox = [] ∧ s.fault = false ∧ takeTurn s = coreTurn s) ∨
    (∃ rest, s.inbox = .core :: rest ∧ takeTurn s = coreTurn (s.setInbox rest)) ∨
    (∃ t rest, s.inbox = .host t :: rest ∧ takeTurn s = hostTurn t (s.setInbox rest)) ∨
    (∃ rest, s.inbox = .reset :: rest ∧ takeTurn s = .next (applyReset (s.setInbox rest))) := by
  unfold takeTurn
  match h : s.inbox with
  | [] => cases hf : s.fault <;> simp
  | .core :: rest => simp
  | .host t :: rest => simp
  | .reset :: rest => simp

/-- The twenty bytes of `Ser(H)` (44_digest_assembly.md R95), as a list. -/
theorem ser_toList (h : Acc) : (ser h).toList = [
    h.h0.extractLsb' 24 8, h.h0.extractLsb' 16 8, h.h0.extractLsb' 8 8, h.h0.extractLsb' 0 8,
    h.h1.extractLsb' 24 8, h.h1.extractLsb' 16 8, h.h1.extractLsb' 8 8, h.h1.extractLsb' 0 8,
    h.h2.extractLsb' 24 8, h.h2.extractLsb' 16 8, h.h2.extractLsb' 8 8, h.h2.extractLsb' 0 8,
    h.h3.extractLsb' 24 8, h.h3.extractLsb' 16 8, h.h3.extractLsb' 8 8, h.h3.extractLsb' 0 8,
    h.h4.extractLsb' 24 8, h.h4.extractLsb' 16 8, h.h4.extractLsb' 8 8, h.h4.extractLsb' 0 8] := by
  simp only [ser, ser32, Vector.toList_append, Vector.toList_mk, List.cons_append, List.nil_append]

/-- Reading a byte of the digest register through its list. -/
theorem digest_getD_toList (v : Vector Byte 20) (i : Nat) : v.getD i 0 = v.toList.getD i 0 := by
  by_cases h : i < 20 <;> simp [Vector.getD, List.getD, h]

end Machine

end Sys2Proof
end

