-- ==== Sys2Proof/Laws/Observers.lean ====
section
/-! SUPPORT. What the updates leave alone of what the meanings read from several fields at once: the length test of a start
(45_sequencer_and_host.md R104) and the bytes of the message (10_state.md R27). Stated for each update so that no proof compares two
states field by field. -/

namespace Sys2Proof.Machine

variable (s : State)

theorem lenAccepted_congr {s t : State} (hl : t.len = s.len) (hc : t.msgCap = s.msgCap) :
    lenAccepted t = lenAccepted s := by
  simp only [lenAccepted, hl, hc]

@[simp] theorem lenAccepted_setW (i : Nat) (v : Word) :
    lenAccepted (s.setW i v) = lenAccepted s := lenAccepted_congr rfl rfl
@[simp] theorem lenAccepted_setRegs (v : Working) :
    lenAccepted (s.setRegs v) = lenAccepted s := lenAccepted_congr rfl rfl
@[simp] theorem lenAccepted_setAcc (v : Acc) :
    lenAccepted (s.setAcc v) = lenAccepted s := lenAccepted_congr rfl rfl
@[simp] theorem lenAccepted_setSeq (p : Phase) (idx : BitVec 7) :
    lenAccepted (s.setSeq p idx) = lenAccepted s := lenAccepted_congr rfl rfl
@[simp] theorem lenAccepted_setBlk (n : Nat) :
    lenAccepted (s.setBlk n) = lenAccepted s := lenAccepted_congr rfl rfl
@[simp] theorem lenAccepted_setRdata (v : BitVec 64) :
    lenAccepted (s.setRdata v) = lenAccepted s := lenAccepted_congr rfl rfl
@[simp] theorem lenAccepted_publish (v : Vector Byte 20) :
    lenAccepted (s.publish v) = lenAccepted s := lenAccepted_congr rfl rfl
@[simp] theorem lenAccepted_clearResult :
    lenAccepted (s.clearResult) = lenAccepted s := lenAccepted_congr rfl rfl
@[simp] theorem lenAccepted_beginRun :
    lenAccepted (s.beginRun) = lenAccepted s := lenAccepted_congr rfl rfl
@[simp] theorem lenAccepted_markLenErr :
    lenAccepted (s.markLenErr) = lenAccepted s := lenAccepted_congr rfl rfl
@[simp] theorem lenAccepted_setInbox (q : List Input) :
    lenAccepted (s.setInbox q) = lenAccepted s := lenAccepted_congr rfl rfl

@[simp] theorem State.readMsg_setW (i : Nat) (v : Word) :
    (s.setW i v).readMsg = s.readMsg := State.readMsg_congr rfl rfl
@[simp] theorem State.readMsg_setRegs (v : Working) :
    (s.setRegs v).readMsg = s.readMsg := State.readMsg_congr rfl rfl
@[simp] theorem State.readMsg_setAcc (v : Acc) :
    (s.setAcc v).readMsg = s.readMsg := State.readMsg_congr rfl rfl
@[simp] theorem State.readMsg_setSeq (p : Phase) (idx : BitVec 7) :
    (s.setSeq p idx).readMsg = s.readMsg := State.readMsg_congr rfl rfl
@[simp] theorem State.readMsg_setBlk (n : Nat) :
    (s.setBlk n).readMsg = s.readMsg := State.readMsg_congr rfl rfl
@[simp] theorem State.readMsg_setRdata (v : BitVec 64) :
    (s.setRdata v).readMsg = s.readMsg := State.readMsg_congr rfl rfl
@[simp] theorem State.readMsg_publish (v : Vector Byte 20) :
    (s.publish v).readMsg = s.readMsg := State.readMsg_congr rfl rfl
@[simp] theorem State.readMsg_clearResult :
    (s.clearResult).readMsg = s.readMsg := State.readMsg_congr rfl rfl
@[simp] theorem State.readMsg_beginRun :
    (s.beginRun).readMsg = s.readMsg := State.readMsg_congr rfl rfl
@[simp] theorem State.readMsg_markLenErr :
    (s.markLenErr).readMsg = s.readMsg := State.readMsg_congr rfl rfl
@[simp] theorem State.readMsg_setInbox (q : List Input) :
    (s.setInbox q).readMsg = s.readMsg := State.readMsg_congr rfl rfl
@[simp] theorem State.readMsg_setLen (v : BitVec 64) :
    (s.setLen v).readMsg = s.readMsg := State.readMsg_congr rfl rfl

@[simp] theorem lenAccepted_raiseFault (c : FaultCode) :
    lenAccepted (raiseFault c s) = lenAccepted s := lenAccepted_congr rfl rfl
@[simp] theorem readMsg_raiseFault (c : FaultCode) :
    (raiseFault c s).readMsg = s.readMsg := State.readMsg_congr rfl rfl

theorem State.readW_congr {s t : State} (hw : t.w = s.w) : t.readW = s.readW := by
  funext j; simp only [State.readW, hw]
@[simp] theorem State.readW_setRegs (v : Working) :
    (s.setRegs v).readW = s.readW := State.readW_congr rfl
@[simp] theorem State.readW_setAcc (v : Acc) :
    (s.setAcc v).readW = s.readW := State.readW_congr rfl
@[simp] theorem State.readW_setSeq (p : Phase) (idx : BitVec 7) :
    (s.setSeq p idx).readW = s.readW := State.readW_congr rfl
@[simp] theorem State.readW_setBlk (n : Nat) :
    (s.setBlk n).readW = s.readW := State.readW_congr rfl
@[simp] theorem State.readW_setInbox (q : List Input) :
    (s.setInbox q).readW = s.readW := State.readW_congr rfl
@[simp] theorem readW_raiseFault (c : FaultCode) :
    (raiseFault c s).readW = s.readW := State.readW_congr rfl

/-- The message depends on `LEN` and the bytes below it alone. -/
theorem message_congr {s t : State} (hl : t.len = s.len) (hm : ∀ j, j < s.len.toNat → t.readMsg j = s.readMsg j) :
    message t = message s := by
  simp only [message, hl]
  exact List.map_congr_left fun j hj => hm j (List.mem_range.mp hj)

/-- The padded bytes depend on `LEN` and the bytes of the message alone. -/
theorem padByte_congr {s t : State} (hl : t.len = s.len) (hm : ∀ j, j < s.len.toNat → t.readMsg j = s.readMsg j)
    (j : Nat) : padByte t j = padByte s j := by
  simp only [padByte, padByteOf, hl]
  split
  · simp [hm j ‹_›]
  · rfl

end Sys2Proof.Machine
end

