-- ==== Sys2Proof/Laws/PerInstr.lean ====
section
/-! SUPPORT. Statements about every instruction as syntax, one lemma for each constructor. The family `EncodeFields` says
which fields the encoder writes: the phase code and index of a control word (30_encoding.md R47), or the direction and
port of a transaction with its operands (R51). -/

namespace Sys2Proof.Laws.EncodeFields

/-- Phase code and index of the control word, or `(we, hsel)`, `addr` and `wdata` of the transaction. -/
def Statement (i : Instr) : Prop :=
  match i with
  | .idle => encode i = .seq (0b000#3 ++ 0#7)
  | .init => encode i = .seq (0b001#3 ++ 0#7)
  | .ldw k => encode i = .seq (0b010#3 ++ k)
  | .exp k => encode i = .seq (0b011#3 ++ k)
  | .binit => encode i = .seq (0b100#3 ++ 0#7)
  | .rndCh t => encode i = .seq (0b101#3 ++ t)
  | .rndPara t => encode i = .seq (0b101#3 ++ t)
  | .rndMaj t => encode i = .seq (0b101#3 ++ t)
  | .rndParb t => encode i = .seq (0b101#3 ++ t)
  | .acc => encode i = .seq (0b110#3 ++ 0#7)
  | .out => encode i = .seq (0b111#3 ++ 0#7)
  | .hRdstatus => encode i = .host ⟨false, 0, 0, 0⟩
  | .hWrctrl v => encode i = .host ⟨true, 1, 0, v⟩
  | .hRdlen => encode i = .host ⟨false, 2, 0, 0⟩
  | .hWrlen v => encode i = .host ⟨true, 2, 0, v⟩
  | .hWrmsg a v => encode i = .host ⟨true, 3, a, v⟩
  | .hRddigest a => encode i = .host ⟨false, 4, a, 0⟩

end Sys2Proof.Laws.EncodeFields

theorem Sys2Proof.Laws.EncodeFields.idle : Statement .idle := rfl
theorem Sys2Proof.Laws.EncodeFields.init : Statement .init := rfl
theorem Sys2Proof.Laws.EncodeFields.ldw (i : BitVec 7) : Statement (.ldw i) := rfl
theorem Sys2Proof.Laws.EncodeFields.exp (i : BitVec 7) : Statement (.exp i) := rfl
theorem Sys2Proof.Laws.EncodeFields.binit : Statement .binit := rfl
theorem Sys2Proof.Laws.EncodeFields.rndCh (t : BitVec 7) : Statement (.rndCh t) := rfl
theorem Sys2Proof.Laws.EncodeFields.rndPara (t : BitVec 7) : Statement (.rndPara t) := rfl
theorem Sys2Proof.Laws.EncodeFields.rndMaj (t : BitVec 7) : Statement (.rndMaj t) := rfl
theorem Sys2Proof.Laws.EncodeFields.rndParb (t : BitVec 7) : Statement (.rndParb t) := rfl
theorem Sys2Proof.Laws.EncodeFields.acc : Statement .acc := rfl
theorem Sys2Proof.Laws.EncodeFields.out : Statement .out := rfl
theorem Sys2Proof.Laws.EncodeFields.hRdstatus : Statement .hRdstatus := rfl
theorem Sys2Proof.Laws.EncodeFields.hWrctrl (wdata : BitVec 64) : Statement (.hWrctrl wdata) := rfl
theorem Sys2Proof.Laws.EncodeFields.hRdlen : Statement .hRdlen := rfl
theorem Sys2Proof.Laws.EncodeFields.hWrlen (wdata : BitVec 64) : Statement (.hWrlen wdata) := rfl
theorem Sys2Proof.Laws.EncodeFields.hWrmsg (addr wdata : BitVec 64) : Statement (.hWrmsg addr wdata) := rfl
theorem Sys2Proof.Laws.EncodeFields.hRddigest (addr : BitVec 64) : Statement (.hRddigest addr) := rfl
end

