-- ==== Sys2Proof/Tests/Slice0.lean ====
section
/-! SUPPORT. The model's own tests: ill-formed terms refused, control words and transactions written out from the tables of
30_encoding.md decoded, one or two steps of each instruction on small states with the expected values of 96_derived_vectors.md, and
for each statement with hypotheses a state and operands that meet them. -/

open Sys2Proof Sys2Proof.Machine

namespace Sys2Proof.Tests

/-! ### WellFormed: an ill-formed term for each check -/

theorem test_wf_ldw : (Instr.ldw 16).wf = false := by decide
theorem test_wf_exp_low : (Instr.exp 15).wf = false := by decide
theorem test_wf_exp_high : (Instr.exp 80).wf = false := by decide
theorem test_wf_rndCh : (Instr.rndCh 20).wf = false := by decide
theorem test_wf_rndPara_low : (Instr.rndPara 19).wf = false := by decide
theorem test_wf_rndPara_high : (Instr.rndPara 40).wf = false := by decide
theorem test_wf_rndMaj_low : (Instr.rndMaj 39).wf = false := by decide
theorem test_wf_rndMaj_high : (Instr.rndMaj 60).wf = false := by decide
theorem test_wf_rndParb_low : (Instr.rndParb 59).wf = false := by decide
theorem test_wf_rndParb_high : (Instr.rndParb 80).wf = false := by decide

/-! ### Decode: every constructor from a word written out from R47, R49 and R51 -/

theorem test_decode_idle : decode (.seq 0b000_0000000#10) = .ok .idle := by decide
theorem test_decode_init : decode (.seq 0b001_0000000#10) = .ok .init := by decide
theorem test_decode_ldw : decode (.seq 0b010_0001111#10) = .ok (.ldw 15) := by decide
theorem test_decode_exp : decode (.seq 0b011_1001111#10) = .ok (.exp 79) := by decide
theorem test_decode_binit : decode (.seq 0b100_0000000#10) = .ok .binit := by decide
theorem test_decode_rndCh : decode (.seq 0b101_0010011#10) = .ok (.rndCh 19) := by decide
theorem test_decode_rndPara : decode (.seq 0b101_0010100#10) = .ok (.rndPara 20) := by decide
theorem test_decode_rndMaj : decode (.seq 0b101_0101000#10) = .ok (.rndMaj 40) := by decide
theorem test_decode_rndParb : decode (.seq 0b101_0111100#10) = .ok (.rndParb 60) := by decide
theorem test_decode_acc : decode (.seq 0b110_0000000#10) = .ok .acc := by decide
theorem test_decode_out : decode (.seq 0b111_0000000#10) = .ok .out := by decide
theorem test_decode_hRdstatus : decode (.host ⟨false, 0b000, 7, 7⟩) = .ok .hRdstatus := by decide
theorem test_decode_hWrctrl : decode (.host ⟨true, 0b001, 7, 1⟩) = .ok (.hWrctrl 1) := by decide
theorem test_decode_hRdlen : decode (.host ⟨false, 0b010, 7, 7⟩) = .ok .hRdlen := by decide
theorem test_decode_hWrlen : decode (.host ⟨true, 0b010, 7, 3⟩) = .ok (.hWrlen 3) := by decide
theorem test_decode_hWrmsg : decode (.host ⟨true, 0b011, 5, 0x1FF⟩) = .ok (.hWrmsg 5 0x1FF) := by decide
theorem test_decode_hRddigest : decode (.host ⟨false, 0b100, 19, 7⟩) = .ok (.hRddigest 19) := by decide

/-- V18: the reserved words of the table. -/
theorem test_decode_reserved_one :
    decodeSeq 0x2D0 = .error .roundRange ∧ decodeSeq 0x2FF = .error .roundRange := by decide

theorem test_decode_reserved_two : ∀ q ∈ [0x081, 0x110, 0x180, 0x18F, 0x1D0, 0x201, 0x301, 0x3FF],
    decodeSeq q = .error .seqReserved := by decide

/-- R51: writes to ports 0 and 4, reads of ports 1 and 3, and ports 5 to 7. -/
theorem test_decode_reserved_host : ∀ c ∈ [(true, 0#3), (true, 4#3), (false, 1#3), (false, 3#3), (true, 5#3), (false, 7#3)],
    decodeHost ⟨c.1, c.2, 1, 1⟩ = .error .hostReserved := by decide

/-- R57: 165 legal words, 48 reserved with code 1. -/
theorem test_decode_count :
    (List.range 1024).countP (fun n => (decodeSeq (BitVec.ofNat 10 n)).toBool) = 165 ∧
    (List.range 1024).countP (fun n => decide (decodeSeq (BitVec.ofNat 10 n) = .error .roundRange)) = 48 := by decide +kernel

theorem test_table_word_exp : decodeTableWord 16 0x190 = some (.exp 16) := by decide
theorem test_table_word_host : decodeTableWord 8 0xB = some (.hWrmsg 0 0) := by decide

/-! ### Primitives (V8, V9, V10) -/

theorem test_rotl32 : rotl32 0x80000000 1 = 1 ∧ rotl32 0x67452301 5 = 0xE8A4602C ∧ rotl32 0x00000003 30 = 0xC0000000 := by
  decide
theorem test_add32 : add32 0xFFFFFFFF 1 = 0 := by decide
theorem test_be32 : be32 0x61 0x62 0x63 0x80 = 0x61626380 := by decide
theorem test_ser32 : ser32 0xA9993E36 = #v[0xA9, 0x99, 0x3E, 0x36] := by decide
theorem test_padLen : [0, 3, 55, 56, 63, 64, 119, 120].map padLen = [64, 64, 64, 128, 128, 128, 128, 192] := by decide
theorem test_padLen_max : padLen (2 ^ 61 - 1) = 2 ^ 61 + 64 ∧ nblk (2 ^ 61 - 1) = 2 ^ 55 + 1 := by decide
theorem test_status_faulted : statusWord (raiseFault .padRange (State.launch 0)) = 0x34 := by decide

/-! ### Single steps -/

/-- The state of a next outcome; the launch state otherwise. -/
def after (o : Host.Outcome State Fault Refusal) : State :=
  match o with
  | .next s => s
  | .fault _ => State.launch 0
  | .refused _ => State.launch 0

/-- "abc" loaded and the core busy at block 0. -/
def abc : State :=
  { State.launch 1024 with busy := true, len := 3, msg := [(0, 0x61), (1, 0x62), (2, 0x63)], seq := 0x100 }

/-- A state with given working registers and one given schedule word. -/
def withRegs (r : Working) (t : Nat) (v : Word) : State := ({ State.launch 0 with regs := r }).setW t v

/-- The operands of V14, rows 9 to 12. -/
def mixed : Working := ⟨0x80000001, 0xF0F0F0F0, 0xAAAAAAAA, 0x55555555, 0x00000001⟩

/-- All operands all ones (V14, rows 5 to 8). -/
def ones : Working := ⟨0xFFFFFFFF, 0xFFFFFFFF, 0xFFFFFFFF, 0xFFFFFFFF, 0xFFFFFFFF⟩

/-- R106: nothing changes; V18: `(IDLE, 0)` in a busy core is fault 2. -/
theorem test_exec_idle : after (exec .idle (State.launch 8)) = State.launch 8 := by decide
theorem test_exec_idle_busy : statusWord (after (exec .idle abc)) = 0x24 := by decide

/-- V16. -/
theorem test_exec_init : (after (exec .init abc)).h.h4 = 0xC3D2E1F0 ∧ (after (exec .init abc)).seq = 0x100 := by decide

/-- V12, rows 1 and 4. -/
theorem test_exec_ldw_first : (after (exec (.ldw 0) abc)).readW 0 = 0x61626380 ∧ (after (exec (.ldw 0) abc)).seq = 0x101 := by
  decide
theorem test_exec_ldw_last : (after (exec (.ldw 15) abc)).readW 15 = 0x18 ∧ (after (exec (.ldw 15) abc)).seq = 0x190 := by
  decide

/-- V13: the last word, with bit 31 rotating into bit 0. -/
theorem test_exec_exp : (after (exec (.exp 79) (abc.setW 76 0x80000000))).readW 79 = 1 ∧
    (after (exec (.exp 79) (abc.setW 76 0x80000000))).seq = 0x200 := by decide
theorem test_exec_exp_taps :
    (after (exec (.exp 16) ((((abc.setW 13 0x12345678).setW 8 0x9ABCDEF0).setW 2 0x0F0F0F0F).setW 0 0xF0F0F0F0))).readW 16
      = 0xEEEEEEEE := by decide

/-- V16: the accumulator is copied. -/
theorem test_exec_binit : (after (exec .binit (abc.setAcc ⟨1, 2, 3, 4, 5⟩))).regs = ⟨1, 2, 3, 4, 5⟩ ∧
    (after (exec .binit abc)).seq = 0x280 := by decide

/-- V14. -/
theorem test_exec_rndCh : (after (exec (.rndCh 5) (withRegs mixed 5 0x12345678))).regs
    = ⟨0x125C75E7, 0x80000001, 0x3C3C3C3C, 0xAAAAAAAA, 0x55555555⟩ := by decide
theorem test_exec_rndCh_wraps : (after (exec (.rndCh 19) (withRegs ones 19 0xFFFFFFFF))).regs.a = 0x5A827995 ∧
    (after (exec (.rndCh 19) (withRegs ones 19 0xFFFFFFFF))).seq = 0x294 := by decide
theorem test_exec_rndPara : (after (exec (.rndPara 25) (withRegs mixed 25 0x12345678))).regs.a = 0x901D5159 := by decide
theorem test_exec_rndMaj : (after (exec (.rndMaj 45) (withRegs mixed 45 0x12345678))).regs.a = 0x92410475 := by decide
theorem test_exec_rndParb : (after (exec (.rndParb 65) (withRegs mixed 65 0x12345678))).regs.a = 0xEBA6278E := by decide
theorem test_exec_rndParb_last : (after (exec (.rndParb 79) (withRegs ones 79 0xFFFFFFFF))).regs.a = 0xCA62C1D2 ∧
    (after (exec (.rndParb 79) (withRegs ones 79 0xFFFFFFFF))).seq = 0x300 := by decide

/-- V16: the last block of "abc"; and the wrapping sums with another block to follow. -/
theorem test_exec_acc_last :
    (after (exec .acc ((abc.setAcc iv).setRegs ⟨0x42541B35, 0x5738D5E1, 0x21834873, 0x681E6DF6, 0xD8FDF6AD⟩))).h
      = ⟨0xA9993E36, 0x4706816A, 0xBA3E2571, 0x7850C26C, 0x9CD0D89D⟩ := by decide
theorem test_exec_acc_next :
    (after (exec .acc { abc with len := 56, h := ⟨0xFFFFFFFF, 0, 0, 0, 0⟩, regs := ⟨1, 0, 0, 0, 0⟩ })).h.h0 = 0 ∧
    (after (exec .acc { abc with len := 56 })).blk = 1 ∧ (after (exec .acc { abc with len := 56 })).seq = 0x100 := by decide

/-- V17, row 3. -/
theorem test_exec_out : (after (exec .out (abc.setAcc ⟨0x01020304, 0x05060708, 0x090A0B0C, 0x0D0E0F10, 0x11121314⟩))).digest
    = #v[1, 2, 3, 4, 5, 6, 7, 8, 9, 10, 11, 12, 13, 14, 15, 16, 17, 18, 19, 20] := by decide
theorem test_exec_out_status : statusWord (after (exec .out abc)) = 0x02 := by decide

/-- V19. -/
theorem test_exec_hRdstatus : (after (exec .hRdstatus abc)).rdata = 0x01 := by decide

/-- V20 row 8, V21 row 2. -/
theorem test_exec_hWrctrl_accepted :
    statusWord (after (exec (.hWrctrl 1) { State.launch 1024 with len := 3, done := true })) = 0x01 := by decide
theorem test_exec_hWrctrl_refused :
    statusWord (after (exec (.hWrctrl 1) { State.launch 1024 with len := 1025, done := true })) = 0x08 := by decide

theorem test_exec_hRdlen : (after (exec .hRdlen abc)).rdata = 3 := by decide

/-- V20 rows 2 and 9. -/
theorem test_exec_hWrlen : (after (exec (.hWrlen 9) (State.launch 0))).len = 9 ∧ (after (exec (.hWrlen 9) abc)).len = 3 := by
  decide

/-- V20 rows 4, 5 and 10. -/
theorem test_exec_hWrmsg : (after (exec (.hWrmsg 5 0x1FF) (State.launch 1024))).msg = [(5, 0xFF)] ∧
    (after (exec (.hWrmsg 1024 0x55) (State.launch 1024))).msg = [] ∧ (after (exec (.hWrmsg 0 0) abc)).msg = abc.msg := by decide

/-- V17: digest bytes 3 and 20. -/
theorem test_exec_hRddigest :
    (after (exec (.hRddigest 3) (after (exec .out (abc.setAcc ⟨0xA9993E36, 0, 0, 0, 0⟩))))).rdata = 0x36 ∧
    (after (exec (.hRddigest 20) (after (exec .out (abc.setAcc ⟨0xA9993E36, 0, 0, 0, 0⟩))))).rdata = 0 := by decide

/-- V22: the three faults, from forced states. -/
theorem test_step_fault_one : (after (step { abc with seq := 0x2D0 })).fcode = 1 ∧
    (after (step { abc with seq := 0x2D0 })).seq = 0x2D0 := by decide
theorem test_step_fault_two : statusWord (after (step { abc with seq := 0x110 })) = 0x24 := by decide
theorem test_step_fault_three : statusWord (after (step { abc with blk := 1 })) = 0x34 := by decide

/-- V23: reset in the middle of a run. -/
theorem test_step_reset : statusWord (after (step { abc with inbox := [.reset] })) = 0x00 ∧
    (after (step { abc with inbox := [.reset] })).msg = [] := by decide

/-- V20 row 17: a reserved write. -/
theorem test_step_reserved : (after (step { abc with inbox := [.host ⟨true, 4, 0, 5⟩] })).digest = abc.digest := by decide

/-- A placed word runs in the next step. -/
theorem test_placed_word : (after (step (State.reset.withFetchWord 16 0x080))).h.h0 = 0x67452301 := by decide

/-! ### States and operands that meet the hypotheses of the statements -/

/-- An idle core whose length is in the domain. -/
def ready : State := { State.launch 64 with len := 3 }

theorem witness_DecodeEncodeRoundTrip : (Instr.exp 79).wf = true ∧ (Instr.rndParb 60).wf = true ∧ (Instr.ldw 15).wf = true := by
  decide
theorem witness_DecodedWordIsTheEncoding :
    decodeSeq 0x10F = .ok (.ldw 15) ∧ decodeHost ⟨true, 3, 0xFFFFFFFFFFFFFFFF, 0x1FF⟩ = .ok (.hWrmsg 0xFFFFFFFFFFFFFFFF 0x1FF) := by decide
theorem witness_TransactionCodesDecode : 5 ≤ (5 : BitVec 3).toNat ∧ 5 ≤ (7 : BitVec 3).toNat := by decide
theorem witness_StepRunsDecodedControlWord : abc.inbox = [] ∧ abc.fault = false ∧ abc.busy = true ∧ decodeSeq abc.seq = .ok (.ldw 0) := by
  decide
theorem witness_StepRunsDecodedControlWord_queued :
    ({ abc with inbox := [.core, .reset] } : State).inbox = .core :: [.reset] ∧ abc.busy = true ∧ abc.fault = false ∧
    decodeSeq abc.seq = .ok (.ldw 0) := by decide
theorem witness_StepRunsDecodedTransaction :
    ({ ready with inbox := [.host ⟨false, 2, 0, 0⟩] } : State).inbox = .host ⟨false, 2, 0, 0⟩ :: [] ∧
    decodeHost ⟨false, 2, 0, 0⟩ = .ok .hRdlen := by decide
theorem witness_CoreStepFollowsDecodeTable_idle : ready.busy = false ∧ (raiseFault .padRange abc).fault = true := by decide
theorem witness_CoreStepFollowsDecodeTable : abc.busy = true ∧ abc.fault = false ∧
    ({ abc with seq := 0x000 } : State).seq = 0b000#3 ++ 0#7 ∧ ({ abc with seq := 0x081 } : State).seq = 0b001#3 ++ 1#7 ∧
    ({ abc with seq := 0x10F } : State).seq = 0b010#3 ++ 15#7 ∧ ({ abc with seq := 0x190 } : State).seq = 0b011#3 ++ 16#7 ∧
    ({ abc with seq := 0x200 } : State).seq = 0b100#3 ++ 0#7 ∧ ({ abc with seq := 0x2D0 } : State).seq = 0b101#3 ++ 80#7 ∧
    ({ abc with seq := 0x300 } : State).seq = 0b110#3 ++ 0#7 ∧ ({ abc with seq := 0x3FF } : State).seq = 0b111#3 ++ 127#7 := by
  decide
theorem witness_ReservedTransactionsDoNothing :
    ((⟨false, 3, 0, 0⟩ : HostTxn).we = false ∧ (⟨false, 3, 0, 0⟩ : HostTxn).hsel = 3) ∧
    ((⟨true, 4, 0, 0⟩ : HostTxn).we = true ∧ (⟨true, 4, 0, 0⟩ : HostTxn).hsel = 4) ∧
    5 ≤ (⟨true, 5, 0, 0⟩ : HostTxn).hsel.toNat := by decide
theorem witness_ResetInputGivesResetState : ({ abc with inbox := [.reset, .core] } : State).inbox = .reset :: [.core] := by decide
theorem witness_FaultIsStickyUntilReset :
    (raiseFault .roundRange abc).fault = true ∧
    ({ raiseFault .roundRange abc with inbox := [.host hostStart] } : State).inbox = .host hostStart :: [] ∧
    Input.host hostStart ≠ Input.reset := by decide
theorem witness_EveryStepAnswersOrIsStuck :
    ((raiseFault .roundRange abc).inbox = [] ∧ (raiseFault .roundRange abc).fault = true) ∧ ¬ (abc.inbox = [] ∧ abc.fault = true) := by
  decide
theorem witness_IllFormedTermsAreRefused : (Instr.rndMaj 60).wf = false := by decide
theorem witness_IdleResult : ready.busy = false ∧ abc.busy = true := by decide
theorem witness_LoadWordResult : (15 : BitVec 7).toNat ≤ 15 ∧ 64 * abc.blk + 4 * (15 : BitVec 7).toNat + 3 < padLen abc.len.toNat := by
  decide
theorem witness_LoadWordResult_fault : (0 : BitVec 7).toNat ≤ 15 ∧
    padLen ({ abc with blk := 1 } : State).len.toNat ≤ 64 * ({ abc with blk := 1 } : State).blk + 4 * (0 : BitVec 7).toNat + 3 := by decide
theorem witness_ExpandWordResult : (16 ≤ (16 : BitVec 7).toNat ∧ (16 : BitVec 7).toNat ≤ 79) ∧
    (16 ≤ (79 : BitVec 7).toNat ∧ (79 : BitVec 7).toNat ≤ 79) := by decide
theorem witness_RoundChResult : (0 : BitVec 7).toNat ≤ 19 ∧ (19 : BitVec 7).toNat ≤ 19 := by decide
theorem witness_RoundParaResult : 20 ≤ (20 : BitVec 7).toNat ∧ (39 : BitVec 7).toNat ≤ 39 ∧ 20 ≤ (39 : BitVec 7).toNat := by decide
theorem witness_RoundMajResult : 40 ≤ (40 : BitVec 7).toNat ∧ (59 : BitVec 7).toNat ≤ 59 ∧ 40 ≤ (59 : BitVec 7).toNat := by decide
theorem witness_RoundParbResult : 60 ≤ (60 : BitVec 7).toNat ∧ (79 : BitVec 7).toNat ≤ 79 ∧ 60 ≤ (79 : BitVec 7).toNat := by decide
theorem witness_AccumulateResult : abc.blk + 1 = padLen abc.len.toNat / 64 ∧
    ({ abc with len := 56 } : State).blk + 1 ≠ padLen ({ abc with len := 56 } : State).len.toNat / 64 := by decide
/-- The first and the last byte of a word of the digest. -/
theorem witness_OutResult : 0 < 4 ∧ 3 < 4 := by decide
theorem witness_SerialisationIsABijection : 0 < 4 ∧ 3 < 4 := by decide
theorem witness_StartCommandResult_ignored : (2 : BitVec 64).getLsbD 0 = false ∧ abc.busy = true ∧ (raiseFault .padRange abc).fault = true := by
  decide
theorem witness_StartCommandResult_accepted : (1 : BitVec 64).getLsbD 0 = true ∧
    ({ ready with len := 64 } : State).busy = false ∧ ({ ready with len := 64 } : State).fault = false ∧
    ({ ready with len := 64 } : State).len.toNat ≤ 2 ^ 61 - 1 ∧ ({ ready with len := 64 } : State).len.toNat ≤ ready.msgCap := by decide
theorem witness_StartCommandResult_refused : (1 : BitVec 64).getLsbD 0 = true ∧
    ({ ready with len := 65 } : State).busy = false ∧ ({ ready with len := 65 } : State).fault = false ∧
    ready.msgCap < ({ ready with len := 65 } : State).len.toNat ∧ 2 ^ 61 - 1 < ({ ready with len := 0x2000000000000000 } : State).len.toNat := by decide
theorem witness_WriteLengthResult : (ready.busy = false ∧ ready.fault = false) ∧ abc.busy = true := by decide
theorem witness_WriteMessageResult : (ready.busy = false ∧ ready.fault = false ∧ (63 : BitVec 64).toNat < ready.msgCap) ∧
    ready.msgCap ≤ (64 : BitVec 64).toNat ∧ abc.busy = true := by decide
theorem witness_ReadDigestResult : (19 : BitVec 64).toNat < 20 ∧ ({ ready with done := true } : State).done = true ∧
    ready.done = false ∧ 20 ≤ (20 : BitVec 64).toNat := by decide
theorem witness_MicroOperationWriteSets : encode .init = .seq 0x080 ∧ ∃ t, exec .init abc = .next t ∧ t.h ≠ abc.h :=
  ⟨by decide, _, rfl, by decide⟩
theorem witness_MicroOperationWriteSets_fault : encode .idle = .seq 0 ∧ ∃ t, exec .idle abc = .next t ∧ t.fault ≠ abc.fault ∧ t.busy ≠ abc.busy :=
  ⟨by decide, _, rfl, by decide⟩
theorem witness_HostTransactionWriteSets : ∃ t, hostTurn hostStart ready = .next t ∧ t.seq ≠ ready.seq := ⟨_, rfl, by decide⟩
theorem witness_LockHoldsInputsConstant : abc.busy = true ∧ hostStart.we = true ∧ ∃ t, step abc = .next t ∧ abc.inbox.head? ≠ some .reset :=
  ⟨by decide, by decide, _, rfl, by decide⟩
theorem witness_ReadsAreIdempotent : (⟨false, 4, 0, 0⟩ : HostTxn).we = false := by decide
theorem witness_AccumulatorChangesOnlyAtInitAndAcc :
    ∃ t, step { abc with seq := 0x080 } = .next t ∧ ({ abc with seq := 0x080 } : State).inbox.head? ≠ some .reset ∧ t.h ≠ abc.h :=
  ⟨_, rfl, by decide, by decide⟩
theorem witness_DigestAndDoneChangeTogether :
    ∃ t, step { abc with seq := 0x380 } = .next t ∧ ({ abc with seq := 0x380 } : State).inbox.head? ≠ some .reset ∧ abc.done = false ∧ t.done = true :=
  ⟨_, rfl, by decide, by decide, by decide⟩
theorem witness_StepKeepsMemoryForm : Memory.wf abc.msg = true ∧ Memory.inside abc.msgCap abc.msg = true ∧ ∃ t, step abc = .next t :=
  ⟨by decide, by decide, _, rfl⟩

/-- The busy state `abc`, at block 0 of one, is in the invariant. -/
theorem abc_inv : Inv abc where
  busyIff := by decide
  legal := ⟨.ldw 0, by decide⟩
  lenOk := by decide
  blkOk := by decide
  notBoth := by decide
  lenErr := by decide
  noFault := by decide
  blkFits := by decide
  memOk := by decide

theorem witness_StepKeepsInvariant : Inv abc ∧ ∃ t, step abc = .next t := ⟨abc_inv, _, rfl⟩

/-- The witness against the bound of R35 item 3 as it is worded: an idle core whose last message had two blocks takes a start with a
length of one block (log 10). -/
theorem witness_BlockBoundAsWrittenIsKept :
    Inv { State.launch 0 with blk := 1, inbox := [.host hostStart] } ∧
    (({ State.launch 0 with blk := 1, inbox := [.host hostStart] } : State).busy = true → 1 < nblk 0) ∧
    ∃ t, step { State.launch 0 with blk := 1, inbox := [.host hostStart] } = .next t ∧ t.busy = true :=
  ⟨⟨by decide, ⟨.idle, by decide⟩, by decide, by decide, by decide, by decide, by decide, by decide, by decide⟩, by decide, _, rfl, by decide⟩

theorem witness_NoFaultIsReachableFromReset :
    ∃ t, runSteps 1 { State.launch 64 with inbox := [.host ⟨false, 2, 0, 0⟩] } = .next t := ⟨_, rfl⟩
theorem witness_RotationIsTheFormula : 0 < 1 ∧ 1 < 32 ∧ 0 < 31 ∧ 31 < 32 := by decide
theorem witness_PaddedLengthLaws : 55 % 64 ≤ 55 ∧ 56 ≤ 56 % 64 ∧ 56 ≤ 63 % 64 ∧ 2 ^ 61 - 1 ≤ 2 ^ 61 - 1 ∧ 128 % 64 = 0 ∧ 119 + 9 ≤ 128 := by
  decide
theorem witness_PadByteByRegion : abc.len.toNat ≤ 2 ^ 61 - 1 ∧ 2 < abc.len.toNat ∧ 3 = abc.len.toNat ∧
    (abc.len.toNat < 4 ∧ 55 < padLen abc.len.toNat - 8) ∧ (padLen abc.len.toNat - 8 ≤ 56 ∧ 63 < padLen abc.len.toNat) ∧
    padLen abc.len.toNat ≤ 64 := by decide
theorem witness_PadByteAgreesWithPad : 63 < padLen abc.len.toNat ∧ padLen abc.len.toNat ≤ 64 := by decide
theorem witness_PadIsInjective : ([0x61] : List Byte).length ≤ 2 ^ 61 - 1 ∧ pad [0x61] = pad [0x61] := ⟨by decide, rfl⟩
theorem witness_ExpandIsLinearAndInjective : (List.replicate 64 (0x61 : Byte)).length = 64 := by decide
theorem witness_EveryRoundIsTheRoundFunction : 79 < 80 ∧ ({ abc with seq := 0x2CF } : State).busy = true ∧
    ({ abc with seq := 0x2CF } : State).fault = false ∧ ({ abc with seq := 0x2CF } : State).seq = BitVec.ofNat 10 (5 * 128 + 79) := by decide
theorem witness_SchedComputesExpand : ∃ b, (split (pad (message (State.launch 0))))[(State.launch 0).blk]? = some b :=
  ⟨_, rfl⟩
theorem witness_AcceptedStartCausesHashTrace :
    ready.busy = false ∧ ready.fault = false ∧ lenAccepted ready = true ∧ ∃ t, exec (.hWrctrl 1) ready = .next t :=
  ⟨by decide, by decide, by decide, _, rfl⟩
theorem witness_BusyUntilExactlyTheStepCount :
    ready.busy = false ∧ ready.fault = false ∧ ready.fcode = 0 ∧ lenAccepted ready = true ∧ 163 < 162 * nblk ready.len.toNat + 2 := by decide
theorem witness_RunComputesSha1 : ready.busy = false ∧ ready.fault = false ∧ lenAccepted ready = true := by decide
theorem witness_HostCannotDisturbARun : ready.busy = false ∧ ready.fault = false ∧ lenAccepted ready = true ∧
    Input.reset ∉ .host hostStart :: List.replicate 163 Input.core ∧
    (Input.host hostStart :: List.replicate 163 Input.core).count .core = 162 * nblk ready.len.toNat + 1 := by decide +kernel

/-- Two histories with one message: other registers, another digest and another byte beyond the message. -/
theorem witness_DigestDependsOnTheMessageAlone :
    let s : State := { ready with msg := [(0, 1), (1, 2), (2, 3)] }
    let s' : State := { ready with msg := [(0, 1), (1, 2), (2, 3), (9, 9)], regs := ⟨1, 1, 1, 1, 1⟩, done := true }
    s.busy = false ∧ s.fault = false ∧ lenAccepted s = true ∧ s'.busy = false ∧ s'.fault = false ∧ lenAccepted s' = true ∧
      s.len = s'.len ∧ ∀ j, j < s.len.toNat → s.readMsg j = s'.readMsg j := by decide

end Sys2Proof.Tests
end

