-- ==== Sys2Proof/Proofs/Rotation.lean ====
section
/-! PROOFS. The rotation of R12 as arithmetic: the two halves that `rotl32` joins occupy disjoint bits, the high half a
multiple of `2 ^ n` and the low half below `2 ^ n`, so their bitwise or is their sum. -/

namespace Sys2Proof.Machine

/-- The high half of a rotation: the bits that stay, moved up by `n`. -/
theorem mul_two_pow_mod_two_pow (x : Nat) {n w : Nat} (h : n ≤ w) :
    x * 2 ^ n % 2 ^ w = 2 ^ n * (x % 2 ^ (w - n)) := by
  rw [Nat.mul_comm, ← Nat.mul_mod_mul_left, ← Nat.pow_add, Nat.add_sub_cancel' h]

/-- The low half of a rotation: the `n` bits that leave at the top. -/
theorem toNat_div_two_pow_lt (x : Word) {n : Nat} (h : n ≤ 32) : x.toNat / 2 ^ (32 - n) < 2 ^ n := by
  rw [Nat.div_lt_iff_lt_mul (Nat.two_pow_pos _), ← Nat.pow_add, Nat.add_sub_cancel' h]
  exact x.isLt

/-- R12 for every amount up to the width, both ends included. -/
theorem toNat_rotl32 (x : Word) {n : Nat} (h : n ≤ 32) :
    (rotl32 x n).toNat = x.toNat * 2 ^ n % 2 ^ 32 + x.toNat / 2 ^ (32 - n) := by
  calc (rotl32 x n).toNat
      = x.toNat * 2 ^ n % 2 ^ 32 ||| x.toNat / 2 ^ (32 - n) := by
        simp only [rotl32, BitVec.toNat_or, BitVec.toNat_shiftLeft, BitVec.toNat_ushiftRight,
          Nat.shiftLeft_eq, Nat.shiftRight_eq_div_pow]
    _ = x.toNat * 2 ^ n % 2 ^ 32 + x.toNat / 2 ^ (32 - n) := by
        rw [mul_two_pow_mod_two_pow _ h, Nat.two_pow_add_eq_or_of_lt (toNat_div_two_pow_lt x h)]

/-- Settles O42: the bounds on `n` are those of R12, within the width. -/
theorem rotationIsTheFormula : Obligations.RotationIsTheFormula :=
  fun x _ _ hn => toNat_rotl32 x hn.le

end Sys2Proof.Machine
end

