-- ==== Sys2Proof/Proofs/Turns.lean ====
section
/-! PROOFS. What one turn of each agent can do, said once. `MicroStep` lists the next states of the micro-operations of the core,
`HostStep` those of a host transaction, and the lemmas `microStep_of_exec`, `coreTurn_next`, `hostStep_of_hostTurn` and `step_next` read
them off the model. The invariants and write sets are case splits over these lists. -/

namespace Sys2Proof

/-- The index of a plain micro-operation is 0 (30_encoding.md R47). -/
theorem decodePlain_ok {idx : BitVec 7} {i j : Instr} (h : decodePlain idx i = .ok j) : idx = 0 ∧ j = i := by
  unfold decodePlain at h
  split at h
  · exact ⟨‹_›, by cases h; rfl⟩
  · cases h

/-- The four variants of a round, each below its bound (R49). -/
theorem decodeRound_ok {k : BitVec 7} {i : Instr} (h : decodeRound k = .ok i) :
    k.toNat < 80 ∧ (i = .rndCh k ∨ i = .rndPara k ∨ i = .rndMaj k ∨ i = .rndParb k) := by
  unfold decodeRound at h
  split_ifs at h <;> cases h <;> exact ⟨by omega, by simp⟩

/-- Every index below 80 names a round. -/
theorem decodeRound_of_lt {k : BitVec 7} (h : k.toNat < 80) : ∃ i, decodeRound k = .ok i := by
  unfold decodeRound
  split_ifs <;> exact ⟨_, rfl⟩

theorem wf_of_decodeRound {k : BitVec 7} {i : Instr} (h : decodeRound k = .ok i) : i.wf = true := by
  unfold decodeRound at h
  split_ifs at h <;> cases h <;> simp only [Instr.wf, decide_eq_true_eq] <;> omega

theorem encode_of_decodeRound {k : BitVec 7} {i : Instr} (h : decodeRound k = .ok i) :
    encode i = .seq (seqWord .rnd k) := by
  obtain ⟨-, rfl | rfl | rfl | rfl⟩ := decodeRound_ok h <;> rfl

/-- A control word that decodes is the encoding of what it decodes to. -/
theorem encode_of_decodeSeq {q : BitVec 10} {i : Instr} (h : decodeSeq q = .ok i) : encode i = .seq q := by
  rw [← seqWord_fields q] at h ⊢
  generalize seqPhase q = p, seqIdx q = idx at h ⊢
  rw [decodeSeq_seqWord] at h
  cases p with
  | ldw | exp =>
    dsimp only at h
    split at h <;> cases h
    rfl
  | rnd => exact encode_of_decodeRound h
  | idle | init | binit | acc | out => obtain ⟨rfl, rfl⟩ := decodePlain_ok h; rfl

namespace Machine

/-! ### The reset state -/

section
variable (cap : Nat)
@[simp] theorem State.launch_seq : (State.launch cap).seq = 0 := (rfl)
@[simp] theorem State.launch_blk : (State.launch cap).blk = 0 := (rfl)
@[simp] theorem State.launch_busy : (State.launch cap).busy = false := (rfl)
@[simp] theorem State.launch_done : (State.launch cap).done = false := (rfl)
@[simp] theorem State.launch_fault : (State.launch cap).fault = false := (rfl)
@[simp] theorem State.launch_lenerr : (State.launch cap).lenerr = false := (rfl)
@[simp] theorem State.launch_fcode : (State.launch cap).fcode = 0 := (rfl)
@[simp] theorem State.launch_len : (State.launch cap).len = 0 := (rfl)
@[simp] theorem State.launch_msg : (State.launch cap).msg = [] := (rfl)
@[simp] theorem State.launch_msgCap : (State.launch cap).msgCap = cap := (rfl)
end

/-! ### The micro-operations of the core -/

/-- The control word after round `k` (45_sequencer_and_host.md R111). -/
def State.afterRound (s : State) (k : BitVec 7) : State :=
  if k.toNat = 79 then s.setSeq .acc 0 else s.setSeq .rnd (k + 1)

/-- Whichever variant the index selects, a round is `Round` of 43_compressor.md R81. -/
theorem exec_round {k : BitVec 7} {i : Instr} (hi : decodeRound k = .ok i) (s : State) :
    exec i s = .next ((s.setRegs (roundFn k.toNat s.regs (s.readW k.toNat))).afterRound k) := by
  have hwf := wf_of_decodeRound hi
  unfold decodeRound at hi
  split_ifs at hi with h20 h40 h60 h80 <;> cases hi
  · simp [exec, execRndCh, hwf, State.afterRound, roundFn, fFun, kConst, h20, show k.toNat ≠ 79 by omega]
  · simp [exec, execRndPara, hwf, State.afterRound, roundFn, fFun, kConst, h20, h40, show k.toNat ≠ 79 by omega]
  · simp [exec, execRndMaj, hwf, State.afterRound, roundFn, fFun, kConst, h20, h40, h60, show k.toNat ≠ 79 by omega]
  · simp only [exec, execRndParb, hwf, State.afterRound, parbRegs, roundFn, fFun, kConst, h20, h40, h60, if_true, if_false]
    exact (apply_ite Host.Outcome.next _ _ _).symm

/-- A round of a well-formed term is the one the decoder selects for its index. -/
theorem decodeRound_of_wf {k : BitVec 7} {i : Instr}
    (hi : i = .rndCh k ∨ i = .rndPara k ∨ i = .rndMaj k ∨ i = .rndParb k) (hwf : i.wf = true) :
    decodeRound k = .ok i := by
  unfold decodeRound
  obtain rfl | rfl | rfl | rfl := hi <;> simp only [Instr.wf, decide_eq_true_eq] at hwf
  · rw [if_pos (by omega)]
  · rw [if_neg (by omega), if_pos (by omega)]
  · rw [if_neg (by omega), if_neg (by omega), if_pos (by omega)]
  · rw [if_neg (by omega), if_neg (by omega), if_neg (by omega), if_pos (by omega)]

/-- A term that no control word stands for has no next state (log 11). -/
theorem wf_of_exec_next {i : Instr} {s t : State} (h : exec i s = .next t) : i.wf = true := by
  cases i with
  | ldw k | exp k | rndCh k | rndPara k | rndMaj k | rndParb k =>
    by_contra hwf
    simp [exec, execLdw, execExp, execRndCh, execRndPara, execRndMaj, execRndParb, hwf] at h
  | _ => rfl

/-- The next states of the micro-operations, the ones that end in the fault entry (60_exceptions.md R129) among them. -/
inductive MicroStep (s : State) : Instr → State → Prop where
  | idle (hbusy : s.busy = false) : MicroStep s .idle s
  | idleFault (hbusy : s.busy = true) : MicroStep s .idle (raiseFault .seqReserved s)
  | init : MicroStep s .init (((s.setAcc iv).setBlk 0).setSeq .ldw 0)
  | ldw {k : BitVec 7} {v : Word} (hk : k.toNat < 15) (hv : padWord s (ldwBase s k) = some v) :
      MicroStep s (.ldw k) ((s.setW k.toNat v).setSeq .ldw (k + 1))
  | ldwLast {k : BitVec 7} {v : Word} (hk : k.toNat = 15) (hv : padWord s (ldwBase s k) = some v) :
      MicroStep s (.ldw k) ((s.setW k.toNat v).setSeq .exp 16)
  | ldwFault {k : BitVec 7} (hk : k.toNat ≤ 15) (hv : padWord s (ldwBase s k) = none) :
      MicroStep s (.ldw k) (raiseFault .padRange s)
  | exp {k : BitVec 7} (hlo : 16 ≤ k.toNat) (hhi : k.toNat < 79) :
      MicroStep s (.exp k) ((s.setW k.toNat (rotl32 (expTaps s k.toNat) 1)).setSeq .exp (k + 1))
  | expLast {k : BitVec 7} (hk : k.toNat = 79) :
      MicroStep s (.exp k) ((s.setW k.toNat (rotl32 (expTaps s k.toNat) 1)).setSeq .binit 0)
  | binit : MicroStep s .binit ((s.setRegs s.h.toWorking).setSeq .rnd 0)
  | rnd {k : BitVec 7} {i : Instr} (hi : decodeRound k = .ok i) (hk : k.toNat < 79) :
      MicroStep s i ((s.setRegs (roundFn k.toNat s.regs (s.readW k.toNat))).setSeq .rnd (k + 1))
  | rndLast {k : BitVec 7} {i : Instr} (hi : decodeRound k = .ok i) (hk : k.toNat = 79) :
      MicroStep s i ((s.setRegs (roundFn k.toNat s.regs (s.readW k.toNat))).setSeq .acc 0)
  | acc (hblk : s.blk + 1 ≠ nblk s.len.toNat) :
      MicroStep s .acc (((s.setAcc (accumulate s.h s.regs)).setBlk (s.blk + 1)).setSeq .ldw 0)
  | accLast (hblk : s.blk + 1 = nblk s.len.toNat) :
      MicroStep s .acc ((s.setAcc (accumulate s.h s.regs)).setSeq .out 0)
  | out : MicroStep s .out ((s.publish (ser s.h)).setSeq .idle 0)

theorem microStep_of_execLdw {k : BitVec 7} {s t : State} (h : exec (.ldw k) s = .next t) : MicroStep s (.ldw k) t := by
  have hk : k.toNat ≤ 15 := by simpa [Instr.wf] using wf_of_exec_next h
  simp only [exec, execLdw, Instr.wf, hk, decide_true, if_true] at h
  split at h <;> cases h
  case h_2 hv => exact .ldwFault hk hv
  case h_1 v hv =>
    unfold State.afterLdw
    split
    · exact .ldwLast ‹_› hv
    · exact .ldw (by omega) hv

theorem microStep_of_execExp {k : BitVec 7} {s t : State} (h : exec (.exp k) s = .next t) : MicroStep s (.exp k) t := by
  have hk : 16 ≤ k.toNat ∧ k.toNat ≤ 79 := by simpa [Instr.wf] using wf_of_exec_next h
  simp only [exec, execExp, Instr.wf, hk, and_self, decide_true, if_true] at h
  cases h
  unfold State.afterExp
  split
  · exact .expLast ‹_›
  · exact .exp hk.1 (by omega)

theorem microStep_of_exec_round {k : BitVec 7} {i : Instr} {s t : State}
    (hi : i = .rndCh k ∨ i = .rndPara k ∨ i = .rndMaj k ∨ i = .rndParb k) (h : exec i s = .next t) :
    MicroStep s i t := by
  have hd := decodeRound_of_wf hi (wf_of_exec_next h)
  rw [exec_round hd] at h
  cases h
  unfold State.afterRound
  split
  · exact .rndLast hd ‹_›
  · have := (decodeRound_ok hd).1
    exact .rnd hd (by omega)

/-- The next state of every instruction that a control word encodes is listed in `MicroStep`. -/
theorem microStep_of_exec {i : Instr} {q : BitVec 10} {s t : State} (he : encode i = .seq q) (h : exec i s = .next t) :
    MicroStep s i t := by
  cases i with
  | idle =>
    simp only [exec, execIdle] at h
    split at h <;> cases h
    · exact .idleFault ‹_›
    · exact .idle (by simpa using ‹¬ s.busy = true›)
  | init => cases h; exact .init
  | ldw k => exact microStep_of_execLdw h
  | exp k => exact microStep_of_execExp h
  | binit => cases h; exact .binit
  | rndCh k | rndPara k | rndMaj k | rndParb k => exact microStep_of_exec_round (k := k) (by simp) h
  | acc =>
    simp only [exec, execAcc] at h
    split at h <;> cases h
    · exact .accLast ‹_›
    · exact .acc ‹_›
  | out => cases h; exact .out
  | hRdstatus | hWrctrl | hRdlen | hWrlen | hWrmsg | hRddigest => cases he

/-- The core's turn: it has no step, or it performs the micro-operation that its control word encodes, or the word is
reserved. -/
theorem coreTurn_next {s t : State} (h : coreTurn s = .next t) :
    ((s.fault = true ∨ s.busy = false) ∧ t = s) ∨
    (s.fault = false ∧ s.busy = true ∧ ∃ i, encode i = .seq s.seq ∧ MicroStep s i t) ∨
    (s.fault = false ∧ s.busy = true ∧ ∃ r, decodeSeq s.seq = .error r ∧ t = raiseFault (faultOfReject r) s) := by
  obtain ⟨hf, he⟩ | ⟨-, hb, he⟩ | ⟨hf, hb, i, hd, he⟩ | ⟨hf, hb, r, hd, he⟩ := coreTurn_cases s <;> rw [he] at h
  · cases h; exact .inl ⟨.inl hf, rfl⟩
  · cases h; exact .inl ⟨.inr hb, rfl⟩
  · exact .inr (.inl ⟨hf, hb, i, encode_of_decodeSeq hd, microStep_of_exec (encode_of_decodeSeq hd) h⟩)
  · cases h; exact .inr (.inr ⟨hf, hb, r, hd, rfl⟩)

/-! ### The host transactions -/

/-- The next states of a host transaction: a read returns a value, and a write is ignored, a start, or one store. -/
inductive HostStep (s : State) (x : HostTxn) : State → Prop where
  | read (v : BitVec 64) (hwe : x.we = false) : HostStep s x (s.setRdata v)
  | ignored (hwe : x.we = true) : HostStep s x s
  | start (hwe : x.we = true) (hsel : x.hsel = 1) (hbit : startBit x.wdata = true) (hfree : locked s = false)
      (hlen : lenAccepted s = true) : HostStep s x s.clearResult.beginRun
  | startRefused (hwe : x.we = true) (hsel : x.hsel = 1) (hbit : startBit x.wdata = true) (hfree : locked s = false)
      (hlen : lenAccepted s = false) : HostStep s x s.clearResult.markLenErr
  | writeLen (hwe : x.we = true) (hsel : x.hsel = 2) (hfree : locked s = false) : HostStep s x (s.setLen x.wdata)
  | writeMsg (hwe : x.we = true) (hsel : x.hsel = 3) (hfree : locked s = false) (haddr : x.addr.toNat < s.msgCap) :
      HostStep s x (s.writeMsg x.addr.toNat (msgData x.wdata))

/-- The next state of every transaction, reserved ones among them, is listed in `HostStep`. -/
theorem hostStep_of_hostTurn {s t : State} {x : HostTxn} (h : hostTurn x s = .next t) : HostStep s x t := by
  unfold hostTurn decodeHost at h
  split_ifs at h with h0 h1 h2 h3 h4 h5 <;> simp only [exec] at h
  · cases h; exact .read _ h0.1
  · unfold execHWrctrl at h
    split at h <;> cases h
    · rename_i hs
      obtain ⟨hbit, hfree⟩ : startBit x.wdata = true ∧ locked s = false := by simpa using hs
      obtain ⟨hlen, he⟩ | ⟨hlen, he⟩ := startRun_cases s <;> rw [he]
      · exact .start h1.1 h1.2 hbit hfree hlen
      · exact .startRefused h1.1 h1.2 hbit hfree hlen
    · exact .ignored h1.1
  · cases h; exact .read _ h2.1
  · unfold execHWrlen at h
    split at h <;> cases h
    · exact .ignored h3.1
    · exact .writeLen h3.1 h3.2 (by simpa using ‹¬ locked s = true›)
  · unfold execHWrmsg at h
    split at h <;> cases h
    · rename_i hs
      obtain ⟨hfree, haddr⟩ : locked s = false ∧ x.addr.toNat < s.msgCap := by simpa using hs
      exact .writeMsg h4.1 h4.2 hfree haddr
    · exact .ignored h4.1
  · cases h; exact .read _ h5.1
  · unfold reservedTxn at h
    split at h <;> cases h
    · exact .ignored ‹_›
    · exact .read _ (by simpa using ‹¬ x.we = true›)

/-- An unlocked core is neither busy nor faulted (45_sequencer_and_host.md R100). -/
theorem locked_eq_false {s : State} : locked s = false ↔ s.busy = false ∧ s.fault = false := by
  simp [locked]

/-! ### One step -/

/-- A step is a turn of the agent at the head of the queue, with the rest of the queue left; the empty queue gives the core its
turn. -/
theorem step_next {s t : State} (h : step s = .next t) :
    ((s.inbox = [] ∨ s.inbox.head? = some .core) ∧ coreTurn (s.setInbox s.inbox.tail) = .next t) ∨
    (∃ x, s.inbox.head? = some (.host x) ∧ hostTurn x (s.setInbox s.inbox.tail) = .next t) ∨
    (s.inbox.head? = some .reset ∧ t = applyReset (s.setInbox s.inbox.tail)) := by
  unfold step at h
  obtain ⟨-, -, he⟩ | ⟨hq, -, he⟩ | ⟨rest, hq, he⟩ | ⟨x, rest, hq, he⟩ | ⟨rest, hq, he⟩ := takeTurn_cases s <;>
    rw [he] at h
  · cases h
  · have hs : s.setInbox s.inbox.tail = s := by rw [hq, List.tail_nil, ← hq]; rfl
    exact .inl ⟨.inl hq, by rwa [hs]⟩
  · exact .inl ⟨.inr (by simp [hq]), by simpa [hq] using h⟩
  · exact .inr (.inl ⟨x, by simp [hq], by simpa [hq] using h⟩)
  · cases h; exact .inr (.inr ⟨by simp [hq], by simp [hq]⟩)

end Machine

end Sys2Proof
end

