-- ==== Sys2Proof/Proofs/Invariant.lean ====
section
/-! PROOFS. The reset state (10_state.md R33) and the invariant of R35: one rule per state operation says when it keeps `Inv`, and the
step lemma composes the rules along the next states that `MicroStep` and `HostStep` list. Last the state from which R35 item 3 as worded
is lost (log 10). -/

namespace Sys2Proof

/-- The legal control words, by phase (30_encoding.md R48): `EXP` alone has no index 0. -/
theorem decodeSeq_zero {p : Phase} (hp : p ≠ .exp) : ∃ i, decodeSeq (seqWord p 0) = .ok i := by
  cases p <;> simp [decodeSeq_seqWord, decodePlain, decodeRound] at hp ⊢

theorem decodeSeq_ldw {k : BitVec 7} (h : k.toNat ≤ 15) : ∃ i, decodeSeq (seqWord .ldw k) = .ok i :=
  ⟨.ldw k, by rw [decodeSeq_seqWord]; exact if_pos h⟩

theorem decodeSeq_exp {k : BitVec 7} (h : 16 ≤ k.toNat ∧ k.toNat ≤ 79) : ∃ i, decodeSeq (seqWord .exp k) = .ok i :=
  ⟨.exp k, by rw [decodeSeq_seqWord]; exact if_pos h⟩

theorem decodeSeq_rnd {k : BitVec 7} (h : k.toNat < 80) : ∃ i, decodeSeq (seqWord .rnd k) = .ok i := by
  rw [decodeSeq_seqWord]; exact decodeRound_of_lt h

/-- The index does not wrap below 127. -/
theorem toNat_succ {k : BitVec 7} (h : k.toNat < 127) : (k + 1).toNat = k.toNat + 1 := by
  bv_omega

/-- The phase of the control word of a micro-operation, from its encoding. -/
theorem seqPhase_of_encode {p : Phase} {idx : BitVec 7} {q : BitVec 10} (h : Raw.seq (seqWord p idx) = .seq q) :
    seqPhase q = p := by
  cases h; exact seqPhase_seqWord p idx

namespace Machine

/-! ### The reset state -/

/-- Settles O9: the fields of the literal `State.launch`, which stores no byte of `MSG`. -/
theorem resetStateValues : Obligations.ResetStateValues :=
  ⟨rfl, fun cap => ⟨State.launch cap, rfl, by simp [Memory.get]⟩⟩

/-! ### One rule per state operation -/

variable {s : State}

/-- The invariant does not read the data path, the digest register, the queue, `rdata` or the model's counters. -/
theorem Inv.of_data (hs : Inv s) {regs h w digest inbox rdata resets starts} :
    Inv { s with regs := regs, h := h, w := w, digest := digest, inbox := inbox, rdata := rdata, resets := resets,
                 starts := starts } :=
  ⟨hs.busyIff, hs.legal, hs.lenOk, hs.blkOk, hs.notBoth, hs.lenErr, hs.noFault, hs.blkFits, hs.memOk⟩

theorem Inv.setW (hs : Inv s) (i : Nat) (v : Word) : Inv (s.setW i v) := hs.of_data
theorem Inv.setRegs (hs : Inv s) (v : Working) : Inv (s.setRegs v) := hs.of_data
theorem Inv.setAcc (hs : Inv s) (v : Acc) : Inv (s.setAcc v) := hs.of_data
theorem Inv.setRdata (hs : Inv s) (v : BitVec 64) : Inv (s.setRdata v) := hs.of_data
theorem Inv.setInbox (hs : Inv s) (q : List Input) : Inv (s.setInbox q) := hs.of_data

/-- Reset gives the invariant, at any capacity: an idle core with an empty memory. -/
theorem inv_launch (cap : Nat) : Inv (State.launch cap) where
  busyIff := by rw [State.launch_busy, State.launch_seq]; decide
  legal := ⟨.idle, by rw [State.launch_seq]; decide⟩
  lenOk := by simp
  blkOk := by simp
  notBoth := by simp
  lenErr := by simp
  noFault := by simp
  blkFits := by simp
  memOk := by simp

theorem inv_applyReset (s : State) : Inv (applyReset s) := (inv_launch s.msgCap).of_data

theorem nblk_pos (l : Nat) : 0 < nblk l := by
  have := padLen_bounds l
  have := padLen_eq_nblk l
  omega

/-- An accepted length gives at most `2^55 + 1` blocks (40_padder.md R62). -/
theorem nblk_lt_of_lenAccepted (h : lenAccepted s = true) : nblk s.len.toNat < 2 ^ 56 := by
  have hmax : s.len.toNat ≤ 2 ^ 61 - 1 := of_decide_eq_true (Bool.and_eq_true_iff.mp h).1
  have := padLen_bounds s.len.toNat
  have := padLen_eq_nblk s.len.toNat
  omega

/-- A busy core in a block of its message, where every run is from `INIT` to `OUT`. -/
structure InBlock (s : State) : Prop where
  inv : Inv s
  busy : s.busy = true
  blkLt : s.blk < nblk s.len.toNat

theorem InBlock.setW (hs : InBlock s) (i : Nat) (v : Word) : InBlock (s.setW i v) :=
  ⟨hs.inv.setW i v, hs.busy, hs.blkLt⟩
theorem InBlock.setRegs (hs : InBlock s) (v : Working) : InBlock (s.setRegs v) :=
  ⟨hs.inv.setRegs v, hs.busy, hs.blkLt⟩
theorem InBlock.setAcc (hs : InBlock s) (v : Acc) : InBlock (s.setAcc v) :=
  ⟨hs.inv.setAcc v, hs.busy, hs.blkLt⟩

/-- A busy core may be given any block number of its message. -/
theorem Inv.setBlk (hs : Inv s) (hbusy : s.busy = true) {n : Nat} (hn : n < nblk s.len.toNat) :
    InBlock (s.setBlk n) where
  inv := { hs with
    blkOk := fun _ _ => hn
    blkFits := hn.trans (nblk_lt_of_lenAccepted (hs.lenOk hbusy)) }
  busy := hbusy
  blkLt := hn

/-- In a block the core may go to any legal control word but `IDLE`. -/
theorem InBlock.setSeq (hs : InBlock s) (p : Phase) (idx : BitVec 7) (hp : p ≠ .idle)
    (hlegal : ∃ i, decodeSeq (seqWord p idx) = .ok i) : Inv (s.setSeq p idx) :=
  { hs.inv with
    busyIff := by simp [hs.busy, hp]
    legal := hlegal
    blkOk := fun _ _ => hs.blkLt }

/-- The end of a run: the digest is published and the core goes to rest. -/
theorem Inv.publish (hs : Inv s) (hbusy : s.busy = true) (v : Vector Byte 20) : Inv ((s.publish v).setSeq .idle 0) :=
  { hs with
    busyIff := by simp
    legal := decodeSeq_zero (by decide)
    lenOk := by simp
    blkOk := by simp
    notBoth := by simp
    lenErr := fun he => by simp [(hs.lenErr he).1] at hbusy }

/-- An accepted start (45_sequencer_and_host.md R104); `blk` is not asked for before `INIT`. -/
theorem Inv.start (hs : Inv s) (hlen : lenAccepted s = true) : Inv s.clearResult.beginRun :=
  { hs with
    busyIff := by simp
    legal := decodeSeq_zero (by decide)
    lenOk := fun _ => hlen
    blkOk := by simp
    notBoth := by simp
    lenErr := by simp }

/-- A refused start (R105). -/
theorem Inv.startRefused (hs : Inv s) (hbusy : s.busy = false) : Inv s.clearResult.markLenErr :=
  { hs with
    notBoth := by simp
    lenErr := fun _ => ⟨hbusy, rfl⟩ }

/-- The length may be written while no run depends on it (R100, R118). -/
theorem Inv.setLen (hs : Inv s) (hbusy : s.busy = false) (v : BitVec 64) : Inv (s.setLen v) :=
  { hs with
    lenOk := by simp [hbusy]
    blkOk := by simp [hbusy] }

/-- A store at an address that exists. -/
theorem Inv.writeMsg (hs : Inv s) {a : Nat} (ha : a < s.msgCap) (v : Byte) : Inv (s.writeMsg a v) :=
  { hs with memOk := ⟨Memory.wf_set s.msg a v hs.memOk.1, Memory.inside_set s.msg s.msgCap a v ha hs.memOk.2⟩ }

/-! ### The turns -/

/-- In a block of the message no `LDW` leaves the padded message (40_padder.md R68): the fault of R128 does not arise. -/
theorem InBlock.padWord_ne_none (hs : InBlock s) {k : BitVec 7} (hk : k.toNat ≤ 15) : padWord s (ldwBase s k) ≠ none := by
  have := padLen_eq_nblk s.len.toNat
  have := hs.blkLt
  rw [← Option.isSome_iff_ne_none, padWord_isSome, decide_eq_true_eq, ldwBase]
  omega

/-- The micro-operation that a busy core's control word encodes keeps the invariant: it does not fault, and its successor is legal
with `blk` in range. -/
theorem MicroStep.inv {i : Instr} {t : State} (hm : MicroStep s i t) (hs : Inv s) (hbusy : s.busy = true)
    (he : encode i = .seq s.seq) : Inv t := by
  have inBlock {p : Phase} {idx : BitVec 7} (he : Raw.seq (seqWord p idx) = .seq s.seq) (hp : p ≠ .init) : InBlock s :=
    ⟨hs, hbusy, hs.blkOk hbusy (seqPhase_of_encode he ▸ hp)⟩
  cases hm with
  | idle hidle => simp [hidle] at hbusy
  | idleFault => exact absurd (seqPhase_of_encode he) (hs.busyIff.mp hbusy)
  | init =>
    exact ((hs.setAcc iv).setBlk hbusy (nblk_pos _)).setSeq .ldw 0 (by decide) (decodeSeq_zero (by decide))
  | ldw hk hv =>
    exact ((inBlock he (by decide)).setW _ _).setSeq .ldw _ (by decide) (decodeSeq_ldw (by rw [toNat_succ] <;> omega))
  | ldwLast hk hv => exact ((inBlock he (by decide)).setW _ _).setSeq .exp 16 (by decide) (decodeSeq_exp (by decide))
  | ldwFault hk hv => exact absurd hv ((inBlock he (by decide)).padWord_ne_none hk)
  | exp hlo hhi =>
    exact ((inBlock he (by decide)).setW _ _).setSeq .exp _ (by decide) (decodeSeq_exp (by rw [toNat_succ] <;> omega))
  | expLast hk => exact ((inBlock he (by decide)).setW _ _).setSeq .binit 0 (by decide) (decodeSeq_zero (by decide))
  | binit => exact ((inBlock he (by decide)).setRegs _).setSeq .rnd 0 (by decide) (decodeSeq_zero (by decide))
  | rnd hi hk =>
    rw [encode_of_decodeRound hi] at he
    exact ((inBlock he (by decide)).setRegs _).setSeq .rnd _ (by decide) (decodeSeq_rnd (by rw [toNat_succ] <;> omega))
  | rndLast hi hk =>
    rw [encode_of_decodeRound hi] at he
    exact ((inBlock he (by decide)).setRegs _).setSeq .acc 0 (by decide) (decodeSeq_zero (by decide))
  | acc hnext =>
    have hlt : s.blk + 1 < nblk s.len.toNat := lt_of_le_of_ne (inBlock he (by decide)).blkLt hnext
    exact ((hs.setAcc (accumulate s.h s.regs)).setBlk hbusy hlt).setSeq .ldw 0 (by decide) (decodeSeq_zero (by decide))
  | accLast => exact ((inBlock he (by decide)).setAcc _).setSeq .out 0 (by decide) (decodeSeq_zero (by decide))
  | out => exact hs.publish hbusy _

theorem coreTurn_inv {t : State} (hs : Inv s) (h : coreTurn s = .next t) : Inv t := by
  obtain ⟨-, rfl⟩ | ⟨-, hbusy, i, he, hm⟩ | ⟨-, -, r, hd, -⟩ := coreTurn_next h
  · exact hs
  · exact hm.inv hs hbusy he
  · obtain ⟨i, hi⟩ := hs.legal
    rw [hi] at hd
    cases hd

theorem hostTurn_inv {x : HostTxn} {t : State} (hs : Inv s) (h : hostTurn x s = .next t) : Inv t := by
  cases hostStep_of_hostTurn h with
  | read v => exact hs.setRdata v
  | ignored => exact hs
  | start _ _ _ _ hlen => exact hs.start hlen
  | startRefused _ _ _ hfree => exact hs.startRefused (locked_eq_false.mp hfree).1
  | writeLen _ _ hfree => exact hs.setLen (locked_eq_false.mp hfree).1 _
  | writeMsg _ _ _ haddr => exact hs.writeMsg haddr _

/-- Settles O39: each agent's turn keeps the invariant, and the queue is no part of it. -/
theorem stepKeepsInvariant : Obligations.StepKeepsInvariant := by
  intro s t hs h
  obtain ⟨-, h⟩ | ⟨x, -, h⟩ | ⟨-, rfl⟩ := step_next h
  · exact coreTurn_inv (hs.setInbox _) h
  · exact hostTurn_inv (hs.setInbox _) h
  · exact inv_applyReset _

/-- Settles O38: `State.launch` meets the invariant, whatever turns are queued. -/
theorem resetMeetsInvariant : Obligations.ResetMeetsInvariant :=
  fun cap _ => (inv_launch cap).of_data

/-! ### R35 item 3 as worded -/

/-- An idle core with no bytes to hash, after a message of two blocks, that is about to take a start: `blk` is still 1. -/
def staleBlockStart : State := { State.launch 0 with blk := 1, inbox := [.host hostStart] }

theorem inv_staleBlockStart : Inv staleBlockStart :=
  { inv_launch 0 with
    blkOk := by simp [staleBlockStart]
    blkFits := by simp [staleBlockStart] }

/-- Refutes O40: the start leaves `blk = 1`, and the empty message has one block (log 10). -/
theorem not_blockBoundAsWrittenIsKept : ¬ Obligations.BlockBoundAsWrittenIsKept := by
  intro h
  have hstep : step staleBlockStart = .next ((staleBlockStart.setInbox []).clearResult.beginRun) := rfl
  have hlt := h _ _ inv_staleBlockStart (by simp [staleBlockStart]) hstep rfl
  exact absurd hlt (by decide)

end Machine

end Sys2Proof
end

