-- ==== Sys2Proof/Proofs/WriteSets.lean ====
section
/-! PROOFS. What a turn may change: the write column of the micro-operations (10_state.md R21), read off the next states of
`MicroStep`, and what every turn does to the message memory (R27). -/

namespace Sys2Proof.Machine

section
variable {i : Instr} {s t : State} (hm : MicroStep s i t)
include hm

/-- The inputs of a run, and what belongs to the host, are written by no micro-operation. -/
theorem MicroStep.inputs : t.len = s.len ∧ t.msg = s.msg ∧ t.msgCap = s.msgCap ∧ t.lenerr = s.lenerr ∧
    t.inbox = s.inbox ∧ t.rdata = s.rdata ∧ t.resets = s.resets ∧ t.starts = s.starts := by
  cases hm <;> simp

theorem MicroStep.h_ne (hne : t.h ≠ s.h) : i = .init ∨ i = .acc := by
  cases hm <;> simp at hne ⊢

theorem MicroStep.blk_ne (hne : t.blk ≠ s.blk) : i = .init ∨ i = .acc := by
  cases hm <;> simp at hne ⊢

theorem MicroStep.w_ne (hne : t.w ≠ s.w) : (∃ k, i = .ldw k) ∨ ∃ k, i = .exp k := by
  cases hm <;> simp at hne ⊢

/-- `LDW k` and `EXP k` write `w[k]` alone. -/
theorem MicroStep.readW_other {k : BitVec 7} (hi : i = .ldw k ∨ i = .exp k) {j : Nat} (hj : j ≠ k.toNat) :
    t.readW j = s.readW j := by
  cases hm with
  | ldw | ldwLast | exp | expLast =>
    obtain rfl : _ = k := by simpa using hi
    simp [State.readW_setW_other _ _ hj]
  | _ => exact congrFun (State.readW_congr (by simp)) j

theorem MicroStep.regs_ne (hne : t.regs ≠ s.regs) :
    i = .binit ∨ ∃ k, i = .rndCh k ∨ i = .rndPara k ∨ i = .rndMaj k ∨ i = .rndParb k := by
  cases hm with
  | rnd hi | rndLast hi => exact .inr ⟨_, (decodeRound_ok hi).2⟩
  | _ => simp at hne ⊢

theorem MicroStep.digest_ne (hne : t.digest ≠ s.digest ∨ t.done ≠ s.done) : i = .out := by
  cases hm <;> simp at hne ⊢

/-- Only `IDLE` and `LDW` fault, and a fault leaves the control word and the schedule as they were (60_exceptions.md R129). -/
theorem MicroStep.fault_ne (hne : t.fault ≠ s.fault ∨ t.fcode ≠ s.fcode) :
    (i = .idle ∨ ∃ k, i = .ldw k) ∧ t.seq = s.seq ∧ t.w = s.w := by
  cases hm <;> simp at hne ⊢

theorem MicroStep.busy_ne (hne : t.busy ≠ s.busy) : t.busy = false ∧ (i = .out ∨ t.fault = true) := by
  cases hm <;> simp at hne ⊢

end

/-- Settles O31: one lemma per column of the table. -/
theorem microOperationWriteSets : Obligations.MicroOperationWriteSets := by
  rintro i s t ⟨q, he⟩ h
  have hm := microStep_of_exec he h
  obtain ⟨hlen, hmsg, hcap, hlenerr, hinbox, hrdata, hresets, hstarts⟩ := hm.inputs
  exact ⟨⟨hlen, hmsg, congrFun (State.readMsg_congr hmsg hresets), hcap, hlenerr, hinbox, hrdata, hresets, hstarts⟩,
    hm.h_ne, hm.blk_ne, hm.w_ne, fun _ hi _ => hm.readW_other hi, hm.regs_ne, hm.digest_ne, hm.fault_ne, hm.busy_ne⟩

/-! ### The message memory -/

/-- The capacity stays, and the memory keeps its canonical form and range (R8, R27). -/
def KeepsMemory (s t : State) : Prop :=
  t.msgCap = s.msgCap ∧
  (Memory.wf s.msg = true → Memory.inside s.msgCap s.msg = true →
    Memory.wf t.msg = true ∧ Memory.inside t.msgCap t.msg = true)

theorem KeepsMemory.of_eq {s t : State} (hmsg : t.msg = s.msg) (hcap : t.msgCap = s.msgCap) : KeepsMemory s t :=
  ⟨hcap, fun hwf hin => by simp [hmsg, hcap, hwf, hin]⟩

theorem coreTurn_keepsMemory {s t : State} (h : coreTurn s = .next t) : KeepsMemory s t := by
  obtain ⟨-, rfl⟩ | ⟨-, -, i, -, hm⟩ | ⟨-, -, r, -, rfl⟩ := coreTurn_next h
  · exact .of_eq rfl rfl
  · obtain ⟨-, hmsg, hcap, -⟩ := hm.inputs
    exact .of_eq hmsg hcap
  · exact .of_eq (by simp) (by simp)

/-- Of the transactions only a write of port 3 stores a byte, at an address that exists. -/
theorem hostTurn_keepsMemory {s t : State} {x : HostTxn} (h : hostTurn x s = .next t) : KeepsMemory s t := by
  cases hostStep_of_hostTurn h with
  | writeMsg _ _ _ haddr => exact ⟨rfl, fun hwf hin => ⟨Memory.wf_set _ _ _ hwf, Memory.inside_set _ _ _ _ haddr hin⟩⟩
  | _ => exact .of_eq (by simp) (by simp)

/-- Settles O37: each agent's turn keeps the memory, and reset empties it. -/
theorem stepKeepsMemoryForm : Obligations.StepKeepsMemoryForm := by
  intro s t h
  show KeepsMemory (s.setInbox s.inbox.tail) t
  obtain ⟨-, h⟩ | ⟨x, -, h⟩ | ⟨-, rfl⟩ := step_next h
  · exact coreTurn_keepsMemory h
  · exact hostTurn_keepsMemory h
  · exact ⟨by simp, fun _ _ => by simp⟩

end Sys2Proof.Machine
end

