-- ==== Sys2Proof/Proofs/Reads.lean ====
section
/-! PROOFS. The read transactions (20_memory.md R40). `readValue` names the value that a read of each port returns; the read stores it
in `rdata`, on which no such value depends. -/

namespace Sys2Proof.Machine

/-- What a read returns: the status (45_sequencer_and_host.md R101), the length (R117), a digest byte (R120), or 0 at a reserved
port (R121). -/
def readValue (x : HostTxn) (s : State) : BitVec 64 :=
  if x.hsel = 0 then (statusWord s).setWidth 64
  else if x.hsel = 2 then s.len
  else if x.hsel = 4 then digestRead s x.addr.toNat
  else 0

/-- The turn of a read, at each port: it stores the value in `rdata` and does nothing else. -/
theorem hostTurn_read {x : HostTxn} (hwe : x.we = false) (s : State) :
    hostTurn x s = .next (s.setRdata (readValue x s)) := by
  by_cases h0 : x.hsel = 0#3
  · simp [hostTurn, decodeHost, readValue, hwe, h0, exec, execHRdstatus]
  by_cases h2 : x.hsel = 2#3
  · simp [hostTurn, decodeHost, readValue, hwe, h2, exec, execHRdlen]
  by_cases h4 : x.hsel = 4#3
  · simp [hostTurn, decodeHost, readValue, hwe, h4, exec, execHRddigest]
  · simp [hostTurn, decodeHost, readValue, hwe, h0, h2, h4, reservedTxn]

@[simp] theorem statusWord_setRdata (s : State) (v : BitVec 64) : statusWord (s.setRdata v) = statusWord s := by
  simp [statusWord]

/-- A digest byte read while `DONE = 0` depends on the two counters alone (log 3), so it too is free of `rdata`. -/
@[simp] theorem digestRead_setRdata (s : State) (v : BitVec 64) (n : Nat) :
    digestRead (s.setRdata v) n = digestRead s n := by
  simp [digestRead]

/-- No port returns what an earlier read left in `rdata`. -/
@[simp] theorem readValue_setRdata (x : HostTxn) (s : State) (v : BitVec 64) :
    readValue x (s.setRdata v) = readValue x s := by
  simp [readValue]

@[simp] theorem State.setRdata_setRdata (s : State) (u v : BitVec 64) : (s.setRdata u).setRdata v = s.setRdata v := (rfl)

/-- A read changes `rdata` alone, so the same read finds the same value and stores it again. -/
theorem hostTurn_read_again {x : HostTxn} (hwe : x.we = false) (s : State) :
    hostTurn x (s.setRdata (readValue x s)) = .next (s.setRdata (readValue x s)) := by
  rw [hostTurn_read hwe, readValue_setRdata, State.setRdata_setRdata]

/-- Settles O34: the value is `readValue`, at every port. -/
theorem readsAreIdempotent : Obligations.ReadsAreIdempotent :=
  fun x s hwe => ⟨readValue x s, hostTurn_read hwe s, hostTurn_read_again hwe s⟩

end Sys2Proof.Machine
end

