-- ==== Sys2Proof/Proofs/Encoding.lean ====
section
/-! PROOFS. The decoder and the encoder as inverses of each other (30_encoding.md R47, R48, R51). By phase and index a control word is
the encoding of the one instruction it decodes to; a transaction is it too, up to the operands its port ignores. -/

namespace Sys2Proof

/-! ### From an instruction to its word and back -/

/-- The index checks of `Instr.wf` are the ones the decoder makes. -/
theorem decode_encode {i : Instr} (hwf : i.wf = true) : decode (encode i) = .ok i := by
  cases i with
  | ldw k | exp k => exact (decodeSeq_seqWord _ k).trans (if_pos (of_decide_eq_true hwf))
  | rndCh k | rndPara k | rndMaj k | rndParb k =>
    exact (decodeSeq_seqWord .rnd k).trans (Machine.decodeRound_of_wf (by simp) hwf)
  | idle | init | binit | acc | out | hRdstatus | hWrctrl | hRdlen | hWrlen | hWrmsg | hRddigest => rfl

theorem decode_of_encode_eq {i : Instr} {r : Raw} (he : encode i = r) (hwf : i.wf = true) : decode r = .ok i :=
  he ▸ decode_encode hwf

/-- Settles O3: the round trip of `decode_encode`. -/
theorem decodeEncodeRoundTrip : Obligations.DecodeEncodeRoundTrip :=
  fun _ => decode_encode

/-- Settles O1: each word is the encoding of its micro-operation. -/
theorem specControlWordsDecode : Obligations.SpecControlWordsDecode := by
  unfold Obligations.SpecControlWordsDecode
  and_intros <;> exact decode_of_encode_eq rfl rfl

/-! ### From a word to its instruction and back -/

/-- The decoder gives no term outside the index ranges of R47 and R49. -/
theorem wf_of_decodeSeq {q : BitVec 10} {i : Instr} (h : decodeSeq q = .ok i) : i.wf = true := by
  rw [← seqWord_fields q, decodeSeq_seqWord] at h
  generalize seqPhase q = p, seqIdx q = idx at h
  cases p with
  | ldw | exp =>
    dsimp only at h
    split at h <;> cases h
    exact decide_eq_true ‹_›
  | rnd => exact wf_of_decodeRound h
  | idle | init | binit | acc | out => obtain ⟨-, rfl⟩ := decodePlain_ok h; rfl

/-- `Reserved(1)` of R48. -/
theorem decodeRound_of_ge {k : BitVec 7} (h : 80 ≤ k.toNat) : decodeRound k = .error .roundRange := by
  unfold decodeRound
  rw [if_neg (by omega), if_neg (by omega), if_neg (by omega), if_neg (by omega)]

/-- A transaction that decodes has the direction and port of the encoding, and the operands, where the port reads them. -/
theorem encode_of_decodeHost {t : HostTxn} {i : Instr} (h : decodeHost t = .ok i) :
    i.wf = true ∧ ∃ u : HostTxn, encode i = .host u ∧ u.we = t.we ∧ u.hsel = t.hsel ∧
      (u.addr = t.addr ∨ u.addr = 0) ∧ (u.wdata = t.wdata ∨ u.wdata = 0) := by
  unfold decodeHost at h
  split_ifs at h with h0 h1 h2 h3 h4 h5 <;> cases h
  · exact ⟨rfl, _, rfl, h0.1.symm, h0.2.symm, .inr rfl, .inr rfl⟩
  · exact ⟨rfl, _, rfl, h1.1.symm, h1.2.symm, .inr rfl, .inl rfl⟩
  · exact ⟨rfl, _, rfl, h2.1.symm, h2.2.symm, .inr rfl, .inr rfl⟩
  · exact ⟨rfl, _, rfl, h3.1.symm, h3.2.symm, .inr rfl, .inl rfl⟩
  · exact ⟨rfl, _, rfl, h4.1.symm, h4.2.symm, .inl rfl, .inl rfl⟩
  · exact ⟨rfl, _, rfl, h5.1.symm, h5.2.symm, .inl rfl, .inr rfl⟩

/-- Settles O4: the encoding decodes again because what was decoded is well formed. -/
theorem decodedWordIsTheEncoding : Obligations.DecodedWordIsTheEncoding := by
  refine ⟨fun q i h => ⟨wf_of_decodeSeq h, encode_of_decodeSeq h⟩, fun t i h => ?_⟩
  obtain ⟨hwf, u, he, hwe, hsel, haddr, hdata⟩ := encode_of_decodeHost h
  exact ⟨hwf, u, he, hwe, hsel, decode_of_encode_eq he hwf, haddr, hdata⟩

/-! ### The ports of the host -/

/-- Ports 5 to 7 are reserved in both directions (R51). -/
theorem decodeHost_of_five_le {t : HostTxn} (h : 5 ≤ t.hsel.toNat) : decodeHost t = .error .hostReserved := by
  have hne (c : BitVec 3) (hc : c.toNat < 5) : t.hsel ≠ c := by rintro rfl; omega
  simp [decodeHost, hne 0#3 (by decide), hne 1#3 (by decide), hne 2#3 (by decide), hne 3#3 (by decide), hne 4#3 (by decide)]

/-- Settles O2: ports 0 to 4 by evaluation with the operands free, the others by `decodeHost_of_five_le`. -/
theorem transactionCodesDecode : Obligations.TransactionCodesDecode :=
  fun a v => ⟨rfl, rfl, rfl, rfl, rfl, rfl, rfl, rfl, rfl, rfl,
    fun we hsel => decodeHost_of_five_le (t := ⟨we, hsel, a, v⟩)⟩

end Sys2Proof
end

