-- ==== Sys2Proof/Proofs/DecodedTurns.lean ====
section
/-! PROOFS. What the turn of each agent is, from what its word decodes to (30_encoding.md R48, R51, 45_sequencer_and_host.md R98,
R106), and the terms that no word decodes to (log 11). -/

namespace Sys2Proof.Machine

/-! ### The host -/

theorem step_of_host {s : State} {t : HostTxn} {rest : List Input} (hq : s.inbox = .host t :: rest) :
    step s = hostTurn t (s.setInbox rest) := by
  simp only [step, takeTurn, hq]

theorem hostTurn_of_ok {t : HostTxn} {i : Instr} (hd : decodeHost t = .ok i) (s : State) : hostTurn t s = exec i s := by
  simp only [hostTurn, hd]

/-- Settles O6: the head of the queue is the host's turn, and the turn is the decoded transaction. -/
theorem stepRunsDecodedTransaction : Obligations.StepRunsDecodedTransaction :=
  fun _ _ _ _ hq hd => (step_of_host hq).trans (hostTurn_of_ok hd _)

/-! ### The core -/

/-- The step enable (R106). -/
theorem coreTurn_of_not_enabled {s : State} (h : s.busy = false ∨ s.fault = true) : coreTurn s = .next s := by
  obtain hb | hf := h
  · simp [coreTurn, exec, execIdle, hb]
  · simp [coreTurn, hf]

section
variable {s : State} (hb : s.busy = true) (hf : s.fault = false)
include hb hf

theorem coreTurn_of_ok {i : Instr} (hd : decodeSeq s.seq = .ok i) : coreTurn s = exec i s := by
  simp [coreTurn, hb, hf, hd]

theorem coreTurn_of_error {r : Reject} (hd : decodeSeq s.seq = .error r) :
    coreTurn s = .next (raiseFault (faultOfReject r) s) := by
  simp [coreTurn, hb, hf, hd]

/-- A phase with one index check: the micro-operation, or the fault entry. -/
theorem coreTurn_of_ite {c : Prop} [Decidable c] {i : Instr} {r : Reject}
    (hd : decodeSeq s.seq = if c then .ok i else .error r) :
    coreTurn s = if c then exec i s else .next (raiseFault (faultOfReject r) s) := by
  split_ifs at hd ⊢
  · exact coreTurn_of_ok hb hf hd
  · exact coreTurn_of_error hb hf hd

/-- `(IDLE, 0)` of a busy core is as reserved as `(IDLE, idx)` (R127; log 12). -/
theorem coreTurn_idle {idx : BitVec 7} (hq : s.seq = seqWord .idle idx) :
    coreTurn s = .next (raiseFault .seqReserved s) := by
  rw [coreTurn_of_ite hb hf (by rw [hq, decodeSeq_seqWord]; rfl)]
  simp [exec, execIdle, hb, faultOfReject]

/-- The phase with four ranges of the index (R49). -/
theorem coreTurn_rnd {k : BitVec 7} (hq : s.seq = seqWord .rnd k) :
    coreTurn s =
      if k.toNat ≤ 19 then exec (.rndCh k) s
      else if k.toNat ≤ 39 then exec (.rndPara k) s
      else if k.toNat ≤ 59 then exec (.rndMaj k) s
      else if k.toNat ≤ 79 then exec (.rndParb k) s
      else .next (raiseFault .roundRange s) := by
  have hd : decodeSeq s.seq = decodeRound k := by rw [hq, decodeSeq_seqWord]
  have hok {i : Instr} (hi : i = .rndCh k ∨ i = .rndPara k ∨ i = .rndMaj k ∨ i = .rndParb k) (hwf : i.wf = true) :
      coreTurn s = exec i s := coreTurn_of_ok hb hf (hd.trans (decodeRound_of_wf hi hwf))
  split_ifs with h19 h39 h59 h79
  · exact hok (by simp) (decide_eq_true h19)
  · exact hok (by simp) (decide_eq_true ⟨by omega, h39⟩)
  · exact hok (by simp) (decide_eq_true ⟨by omega, h59⟩)
  · exact hok (by simp) (decide_eq_true ⟨by omega, h79⟩)
  · exact coreTurn_of_error hb hf (hd.trans (decodeRound_of_ge (by omega)))

end

/-- Settles O7: `IDLE` and `RND` by their own lemmas, and each of the other phases has one index check. -/
theorem coreStepFollowsDecodeTable : Obligations.CoreStepFollowsDecodeTable := by
  intro s idx
  refine ⟨coreTurn_of_not_enabled, fun hb hf => ?_⟩
  have hd {p : Phase} (hq : s.seq = seqWord p idx) := (congrArg decodeSeq hq).trans (decodeSeq_seqWord p idx)
  exact ⟨coreTurn_idle hb hf, fun hq => coreTurn_of_ite hb hf (hd (p := .init) hq),
    fun hq => coreTurn_of_ite hb hf (hd (p := .ldw) hq), fun hq => coreTurn_of_ite hb hf (hd (p := .exp) hq),
    fun hq => coreTurn_of_ite hb hf (hd (p := .binit) hq), coreTurn_rnd hb hf,
    fun hq => coreTurn_of_ite hb hf (hd (p := .acc) hq), fun hq => coreTurn_of_ite hb hf (hd (p := .out) hq)⟩

/-! ### Terms that no word stands for -/

/-- Settles O13: the six instructions with an index check test it first; every other term is well formed. -/
theorem illFormedTermsAreRefused : Obligations.IllFormedTermsAreRefused := by
  intro i s hwf
  cases i with
  | ldw k => simp [exec, execLdw, hwf]
  | exp k => simp [exec, execExp, hwf]
  | rndCh k => simp [exec, execRndCh, hwf]
  | rndPara k => simp [exec, execRndPara, hwf]
  | rndMaj k => simp [exec, execRndMaj, hwf]
  | rndParb k => simp [exec, execRndParb, hwf]
  | idle | init | binit | acc | out | hRdstatus | hWrctrl | hRdlen | hWrlen | hWrmsg | hRddigest => cases hwf

end Sys2Proof.Machine
end

