-- ==== Sys2Proof/Proofs/Padder.lean ====
section
/-! PROOFS. The Padder of 40_padder.md: the lengths, the regions of `PadByte`, its agreement with `Pad`, and the way back
from a padded message to the message. `PadByte` reads single bytes of the length field `ser64(8 * L)`; its eight bytes
together give the length back. -/

namespace Sys2Proof.Machine

/-! ### The lengths -/

/-- `P(L)` is no larger than any other multiple of 64 with room for the marker and the length field (R62). -/
theorem padLen_le_of_mod_eq_zero {l m : Nat} (hm : m % 64 = 0) (hl : l + 9 ≤ m) : padLen l ≤ m := by
  unfold padLen
  omega

theorem padLen_eq_add_zeroCount (l : Nat) : padLen l = l + zeroCount l + 9 := by
  have := padLen_bounds l
  unfold zeroCount
  omega

/-- The length field starts after the message, the marker and the zeros (R63). -/
theorem padLen_sub_eight (l : Nat) : padLen l - 8 = l + (zeroCount l + 1) := by
  have := padLen_eq_add_zeroCount l
  omega

/-- Settles O43: but for the minimality of `P(L)`, every clause is linear arithmetic over the bounds of `P(L)` and the two
equations `P = L + Z + 9` and `P = 64 * NBLK`. -/
theorem paddedLengthLaws : Obligations.PaddedLengthLaws := by
  intro l
  obtain ⟨hlow, hhigh, hdvd⟩ := padLen_bounds l
  have hz := padLen_eq_add_zeroCount l
  have hn := padLen_eq_nblk l
  exact ⟨hn.symm, nblk_pos l, hdvd, hlow, fun m => padLen_le_of_mod_eq_zero, hhigh, hz, by omega, by omega, by omega, by omega⟩

/-! ### `PadByte` by region -/

theorem padByteOf_of_lt {l j : Nat} (msg : Nat → Byte) (h : j < l) : padByteOf l msg j = some (msg j) := if_pos h

theorem padByteOf_length (l : Nat) (msg : Nat → Byte) : padByteOf l msg l = some 0x80 := by
  simp [padByteOf]

theorem padByteOf_zero {l j : Nat} (msg : Nat → Byte) (h : l < j) (hj : j < padLen l - 8) :
    padByteOf l msg j = some 0x00 := by
  rw [padByteOf, if_neg (by omega), if_neg (by omega), if_pos hj]

theorem padByteOf_lengthField {l j : Nat} (msg : Nat → Byte) (h : padLen l - 8 ≤ j) (hj : j < padLen l) :
    padByteOf l msg j = some (ser64Byte (8 * l) (j - (padLen l - 8))) := by
  have := padLen_bounds l
  rw [padByteOf, if_neg (by omega), if_neg (by omega), if_neg (by omega), if_pos hj]

theorem padByteOf_of_padLen_le {l j : Nat} (msg : Nat → Byte) (h : padLen l ≤ j) : padByteOf l msg j = none := by
  rw [← Option.not_isSome_iff_eq_none, padByteOf_isSome, decide_eq_true_eq]
  exact h.not_gt

/-- In the domain the bit length fits in 64 bits, so a byte of `ser64(8 * L)` is a byte of the 64-bit shift of `L` (R65). -/
theorem ser64Byte_eight_mul {v : BitVec 64} (hv : v.toNat ≤ 2 ^ 61 - 1) (q : Nat) :
    ser64Byte (8 * v.toNat) q = (v <<< 3).extractLsb' (56 - 8 * q) 8 := by
  have hshift : (v <<< 3).toNat = 8 * v.toNat := by
    rw [BitVec.toNat_shiftLeft, Nat.shiftLeft_eq]
    omega
  apply BitVec.eq_of_toNat_eq
  rw [ser64Byte, BitVec.toNat_ofNat, BitVec.extractLsb'_toNat, hshift, Nat.shiftRight_eq_div_pow]

/-- Settles O44: one lemma for each region; byte `j - (P - 8)` of the length field starts at bit `56 - 8 * (j - (P - 8))`. -/
theorem padByteByRegion : Obligations.PadByteByRegion := by
  intro s j hdom
  refine ⟨padByteOf_of_lt _, ?_, padByteOf_zero _, fun h hj => ?_, padByteOf_of_padLen_le _⟩
  · rintro rfl
    exact padByteOf_length _ _
  · have := padLen_bounds s.len.toNat
    have hbit : 63 - 8 * (j + 8 - padLen s.len.toNat) - 7 = 56 - 8 * (j - (padLen s.len.toNat - 8)) := by omega
    rw [padByte, padByteOf_lengthField _ h hj, ser64Byte_eight_mul hdom, hbit]

/-! ### `PadByte` and `Pad` -/

@[simp] theorem length_message (s : State) : (message s).length = s.len.toNat := by simp [message]

theorem length_pad (m : List Byte) : (pad m).length = padLen m.length := by
  simp [pad, padLen_eq_add_zeroCount]
  omega

/-- `PadByte` computes the bytes of `Pad` (R66), and neither has a byte at or beyond `P(L)`. -/
theorem getElem?_pad_map_range (l : Nat) (msg : Nat → Byte) (j : Nat) :
    (pad ((List.range l).map msg))[j]? = padByteOf l msg j := by
  have hfield := padLen_sub_eight l
  obtain hj | rfl | hj : j < l ∨ j = l ∨ l < j := by omega
  · simp [padByteOf_of_lt, pad, List.getElem?_append_left, hj]
  · simp [padByteOf_length, pad]
  obtain hz | ⟨hz, hp⟩ | hp : j < padLen l - 8 ∨ padLen l - 8 ≤ j ∧ j < padLen l ∨ padLen l ≤ j := by omega
  · rw [padByteOf_zero _ hj hz, pad, List.getElem?_append_left (by simp; omega),
      List.getElem?_append_right (by simp; omega), List.getElem?_replicate_of_lt (by simp; omega)]
  · rw [padByteOf_lengthField _ hz hp, hfield, pad, List.getElem?_append_right (by simp; omega), List.getElem?_map,
      List.getElem?_range (by simp; omega)]
    simp
  · rw [padByteOf_of_padLen_le _ hp, List.getElem?_eq_none (by simpa [length_pad] using hp)]

/-- Settles O45: the message is the list of the bytes `PadByte` reads, so `Pad` of it is read by `PadByte`. -/
theorem padByteAgreesWithPad : Obligations.PadByteAgreesWithPad := by
  intro s j
  exact ⟨by rw [length_pad, length_message], fun _ => (getElem?_pad_map_range _ _ j).symm, padByteOf_of_padLen_le _⟩

/-! ### From the padded message back to the message -/

/-- The eight bytes of `ser64` determine a 64-bit value (R14, R53). -/
theorem eq_of_map_ser64Byte_eq {v v' : Nat} (hv : v < 2 ^ 64) (hv' : v' < 2 ^ 64)
    (h : (List.range 8).map (ser64Byte v) = (List.range 8).map (ser64Byte v')) : v = v' := by
  have hb (q : Nat) (hq : q < 8) : v / 2 ^ (56 - 8 * q) % 2 ^ 8 = v' / 2 ^ (56 - 8 * q) % 2 ^ 8 := by
    simpa [ser64Byte] using congrArg BitVec.toNat (List.map_inj_left.mp h q (List.mem_range.mpr hq))
  have h0 := hb 0 (by decide)
  have h1 := hb 1 (by decide)
  have h2 := hb 2 (by decide)
  have h3 := hb 3 (by decide)
  have h4 := hb 4 (by decide)
  have h5 := hb 5 (by decide)
  have h6 := hb 6 (by decide)
  have h7 := hb 7 (by decide)
  omega

/-- Settles O47: the last eight bytes give the bit length, and with it the place where the message ends. -/
theorem padIsInjective : Obligations.PadIsInjective := by
  intro m m' hm hm' h
  have hfield : (List.range 8).map (ser64Byte (8 * m.length)) = (List.range 8).map (ser64Byte (8 * m'.length)) :=
    List.append_inj_right' h (by simp)
  have hlen : m.length = m'.length := by
    have := eq_of_map_ser64Byte_eq (by omega) (by omega) hfield
    omega
  simp only [pad, List.append_assoc] at h
  exact List.append_inj_left h hlen

end Sys2Proof.Machine
end

