-- ==== Sys2Proof/Proofs/BlockSplitter.lean ====
section
/-! PROOFS. The Block Splitter of 41_block_splitter.md: the number and the size of the blocks of any byte list, and what
they join to. -/

namespace Sys2Proof.Machine

@[simp] theorem length_split (pm : List Byte) : (split pm).length = pm.length / 64 := by simp [split]

/-- A block starts at `64 * n` with `n < pm.length / 64`, so 64 bytes are left there. -/
theorem length_of_mem_split {pm b : List Byte} (hb : b ∈ split pm) : b.length = 64 := by
  obtain ⟨n, hn, rfl⟩ := List.mem_map.mp hb
  have := List.mem_range.mp hn
  rw [List.length_take, List.length_drop]
  omega

/-- The first `n` blocks join to the first `64 * n` bytes. -/
theorem flatten_blocks_eq_take (pm : List Byte) (n : Nat) :
    ((List.range n).map fun i => (pm.drop (64 * i)).take 64).flatten = pm.take (64 * n) := by
  induction n with
  | zero => simp
  | succ n ih => simp [List.range_succ, ih, Nat.mul_succ, List.take_add]

theorem flatten_split {pm : List Byte} (h : 64 ∣ pm.length) : (split pm).flatten = pm := by
  rw [split, flatten_blocks_eq_take, Nat.mul_div_cancel' h, List.take_length]

/-- Settles O46: the padded message has `P(L) = 64 * NBLK` bytes, so its blocks leave no remainder. -/
theorem splitIsAnExactPartition : Obligations.SplitIsAnExactPartition := by
  intro m
  have hlen : (pad m).length = 64 * nblk m.length := by rw [length_pad, padLen_eq_nblk]
  have hcount : (split (pad m)).length = nblk m.length := by
    rw [length_split, hlen, Nat.mul_div_cancel_left _ (by decide)]
  exact ⟨hlen.symm, nblk_pos _, hcount, fun _ => length_of_mem_split, flatten_split ⟨_, hlen⟩⟩

end Sys2Proof.Machine
end

