-- ==== Sys2Proof/Proofs/LoadAndExpand.lean ====
section
/-! PROOFS. The two micro-operations of 42_schedule_expander.md, as the exact next state of each: the word `be32` that `LDW`
assembles from four bytes of `PAD` (R74), the recurrence of `EXP` (R75), and their successors (R108, R109). -/

namespace Sys2Proof.Machine

/-! ### Four bytes as a word -/

/-- A byte appended to a word: its bits are free of those of the word moved up, so their bitwise or is their sum. -/
theorem toNat_append_byte {n : Nat} (x : BitVec n) (b : Byte) : (x ++ b).toNat = x.toNat * 2 ^ 8 + b.toNat := by
  rw [BitVec.toNat_append, ← Nat.shiftLeft_add_eq_or_of_lt b.isLt, Nat.shiftLeft_eq]

/-- `be32` in natural numbers, most significant byte first (R14). -/
theorem toNat_be32 (b0 b1 b2 b3 : Byte) :
    (be32 b0 b1 b2 b3).toNat = b0.toNat * 2 ^ 24 + b1.toNat * 2 ^ 16 + b2.toNat * 2 ^ 8 + b3.toNat := by
  simp only [be32, toNat_append_byte]
  omega

theorem be32_eq_ofNat (b0 b1 b2 b3 : Byte) :
    be32 b0 b1 b2 b3 = BitVec.ofNat 32 (b0.toNat * 2 ^ 24 + b1.toNat * 2 ^ 16 + b2.toNat * 2 ^ 8 + b3.toNat) := by
  rw [← toNat_be32, BitVec.ofNat_toNat, BitVec.setWidth_eq]

theorem be32_inj {b0 b1 b2 b3 c0 c1 c2 c3 : Byte} (h : be32 b0 b1 b2 b3 = be32 c0 c1 c2 c3) :
    b0 = c0 ∧ b1 = c1 ∧ b2 = c2 ∧ b3 = c3 := by
  have hn := congrArg BitVec.toNat h
  simp only [toNat_be32] at hn
  refine ⟨?_, ?_, ?_, ?_⟩ <;> apply BitVec.eq_of_toNat_eq <;> omega

/-! ### The next states -/

theorem padByte_of_lt {s : State} {j : Nat} (h : j < padLen s.len.toNat) : ∃ v, padByte s j = some v :=
  Option.isSome_iff_exists.mp ((padByteOf_isSome _ _ _).trans (decide_eq_true h))

theorem padWord_of_lt {s : State} {base : Nat} (h : base + 3 < padLen s.len.toNat) : ∃ b0 b1 b2 b3 : Byte,
    padByte s base = some b0 ∧ padByte s (base + 1) = some b1 ∧ padByte s (base + 2) = some b2 ∧
    padByte s (base + 3) = some b3 ∧ padWord s base = some (be32 b0 b1 b2 b3) := by
  obtain ⟨b0, h0⟩ := padByte_of_lt (s := s) (j := base) (by omega)
  obtain ⟨b1, h1⟩ := padByte_of_lt (s := s) (j := base + 1) (by omega)
  obtain ⟨b2, h2⟩ := padByte_of_lt (s := s) (j := base + 2) (by omega)
  obtain ⟨b3, h3⟩ := padByte_of_lt (s := s) (j := base + 3) h
  exact ⟨b0, b1, b2, b3, h0, h1, h2, h3, by simp only [padWord, h0, h1, h2, h3]⟩

/-- No word stands at an address whose last byte is at or beyond `P(LEN)` (R68). -/
theorem padWord_of_padLen_le {s : State} {base : Nat} (h : padLen s.len.toNat ≤ base + 3) : padWord s base = none := by
  rw [← Option.not_isSome_iff_eq_none, padWord_isSome, decide_eq_true_eq]
  exact h.not_gt

theorem State.afterLdw_eq (s : State) (i : BitVec 7) (hi : i.toNat ≤ 15) :
    s.afterLdw i =
      { s with seq := if i.toNat = 15 then 0b011_0010000 else BitVec.ofNat 10 (2 * 128 + (i.toNat + 1)) } := by
  unfold State.afterLdw
  split
  · rfl
  · rw [State.setSeq, seqWord_succ .ldw i (by omega)]
    rfl

theorem State.afterExp_eq (s : State) (i : BitVec 7) (hi : i.toNat ≤ 79) :
    s.afterExp i =
      { s with seq := if i.toNat = 79 then 0b100_0000000 else BitVec.ofNat 10 (3 * 128 + (i.toNat + 1)) } := by
  unfold State.afterExp
  split
  · rfl
  · rw [State.setSeq, seqWord_succ .exp i (by omega)]
    rfl

section
variable {s : State} {i : BitVec 7}

theorem exec_ldw_of_some {v : Word} (hi : i.toNat ≤ 15) (hv : padWord s (ldwBase s i) = some v) :
    exec (.ldw i) s = .next ((s.setW i.toNat v).afterLdw i) := by
  simp [exec, execLdw, Instr.wf, hi, hv]

/-- The fault entry with code 3 (60_exceptions.md R128). -/
theorem exec_ldw_of_none (hi : i.toNat ≤ 15) (hv : padWord s (ldwBase s i) = none) :
    exec (.ldw i) s = .next (raiseFault .padRange s) := by
  simp [exec, execLdw, Instr.wf, hi, hv]

theorem exec_exp (hlo : 16 ≤ i.toNat) (hhi : i.toNat ≤ 79) :
    exec (.exp i) s = .next ((s.setW i.toNat (rotl32 (expTaps s i.toNat) 1)).afterExp i) := by
  simp [exec, execExp, Instr.wf, hlo, hhi]

end

/-- Settles O16: the last of the four bytes decides whether `LDW` assembles a word or faults. -/
theorem loadWordResult : Obligations.LoadWordResult := by
  refine ⟨decodeSeq_seqWord .ldw, fun s i hi => ⟨fun hlt => ?_, fun hge => ?_⟩⟩
  · obtain ⟨b0, b1, b2, b3, h0, h1, h2, h3, hword⟩ := padWord_of_lt hlt
    refine ⟨b0, b1, b2, b3, h0, h1, h2, h3, ?_⟩
    rw [exec_ldw_of_some hi hword, State.afterLdw_eq _ i hi, be32_eq_ofNat]
    rfl
  · exact exec_ldw_of_none hi (padWord_of_padLen_le hge)

/-- Settles O17: the model's rotation is the library's, and the successor is `afterExp`. -/
theorem expandWordResult : Obligations.ExpandWordResult := by
  refine ⟨decodeSeq_seqWord .exp, fun s i hlo hhi => ?_⟩
  rw [exec_exp hlo hhi, rotl32_eq_rotateLeft _ 1 (by decide), State.afterExp_eq _ i hhi]
  rfl

end Sys2Proof.Machine
end

