-- ==== Sys2Proof/Proofs/ScheduleExpander.lean ====
section
/-! PROOFS. The Schedule Expander of 42_schedule_expander.md: `Expand` is the one list of 80 words that starts with the words of the
block and follows the recurrence (R76). Linearity and injectivity (R78) and the result of `SCHED` (R77) are read off that. -/

namespace Sys2Proof.Machine

/-! ### The recurrence -/

/-- The xor of the four words that word `i` of a schedule is computed from (R76). -/
def scheduleTaps (ws : List Word) (i : Nat) : Word :=
  ws.getD (i - 3) 0 ^^^ ws.getD (i - 8) 0 ^^^ ws.getD (i - 14) 0 ^^^ ws.getD (i - 16) 0

theorem nextWord_eq (ws : List Word) : nextWord ws = rotl32 (scheduleTaps ws ws.length) 1 := rfl

/-- `EXP i` reads the same four words from the schedule buffer. -/
theorem expTaps_eq_scheduleTaps {s : State} {ws : List Word} {i : Nat} (hi : 0 < i)
    (h : ∀ j < i, s.readW j = ws.getD j 0) : expTaps s i = scheduleTaps ws i := by
  rw [expTaps, scheduleTaps, h (i - 3) (by omega), h (i - 8) (by omega), h (i - 14) (by omega), h (i - 16) (by omega)]

theorem scheduleTaps_congr {ws ws' : List Word} {i : Nat} (hi : 0 < i)
    (h : ∀ j < i, ws.getD j 0 = ws'.getD j 0) : scheduleTaps ws i = scheduleTaps ws' i := by
  rw [scheduleTaps, h (i - 3) (by omega), h (i - 8) (by omega), h (i - 14) (by omega), h (i - 16) (by omega), scheduleTaps]

/-- `ws` is the schedule of block `b` as R76 defines it: the 16 words of the block, then the recurrence. -/
structure IsSchedule (b : List Byte) (ws : List Word) : Prop where
  length : ws.length = 80
  first : ∀ i, i < 16 → ws.getD i 0 = blockWord b i
  next : ∀ i, 16 ≤ i → i < 80 → ws.getD i 0 = rotl32 (scheduleTaps ws i) 1

/-- A block has one schedule. -/
theorem IsSchedule.eq {b : List Byte} {ws ws' : List Word} (h : IsSchedule b ws) (h' : IsSchedule b ws') : ws = ws' := by
  have hword (i : Nat) (hi : i < 80) : ws.getD i 0 = ws'.getD i 0 := by
    induction i using Nat.strong_induction_on with
    | _ i ih =>
      by_cases hlo : i < 16
      · rw [h.first i hlo, h'.first i hlo]
      · rw [h.next i (by omega) hi, h'.next i (by omega) hi,
          scheduleTaps_congr (by omega) fun j hj => ih j hj (by omega)]
  refine List.ext_getElem (h.length.trans h'.length.symm) fun i hi hi' => ?_
  simpa [hi, hi'] using hword i (h.length ▸ hi)

/-! ### `Expand` is the schedule -/

@[simp] theorem length_extendBy (n : Nat) (ws : List Word) : (extendBy n ws).length = ws.length + n := by
  induction n generalizing ws with
  | zero => rfl
  | succ n ih => simp [extendBy, ih]; omega

theorem getD_extendBy_of_lt (n : Nat) {ws : List Word} {i : Nat} (hi : i < ws.length) :
    (extendBy n ws).getD i 0 = ws.getD i 0 := by
  induction n generalizing ws with
  | zero => rfl
  | succ n ih => rw [extendBy, ih (by simp; omega), List.getD_append _ _ _ _ hi]

/-- Every appended word follows the recurrence in the finished list: what was appended after it changes no earlier word. -/
theorem getD_extendBy_of_ge (n : Nat) {ws : List Word} {i : Nat} (hpos : 0 < ws.length) (hlo : ws.length ≤ i)
    (hi : i < ws.length + n) : (extendBy n ws).getD i 0 = rotl32 (scheduleTaps (extendBy n ws) i) 1 := by
  induction n generalizing ws with
  | zero => omega
  | succ n ih =>
    obtain rfl | hlt := hlo.eq_or_lt
    · have hkeep : scheduleTaps (extendBy (n + 1) ws) ws.length = scheduleTaps ws ws.length :=
        scheduleTaps_congr hpos fun j hj => getD_extendBy_of_lt (n + 1) hj
      rw [hkeep, ← nextWord_eq, extendBy, getD_extendBy_of_lt n (by simp), List.getD_append_right _ _ _ _ le_rfl]
      simp
    · exact ih (ws := ws ++ [nextWord ws]) (by simp) (by simpa using hlt) (by simp; omega)

theorem isSchedule_expand (b : List Byte) : IsSchedule b (expand b) where
  length := by simp [expand]
  first i hi := by
    rw [expand, getD_extendBy_of_lt _ (by simpa using hi)]
    simp [hi]
  next i hlo hhi := getD_extendBy_of_ge 64 (by simp) (by simpa using hlo) (by simpa using hhi)

/-! ### Linearity over xor -/

theorem be32_xor (b0 b1 b2 b3 c0 c1 c2 c3 : Byte) :
    be32 (b0 ^^^ c0) (b1 ^^^ c1) (b2 ^^^ c2) (b3 ^^^ c3) = be32 b0 b1 b2 b3 ^^^ be32 c0 c1 c2 c3 := by
  simp only [be32, ← BitVec.xor_append]

theorem rotl32_xor (x y : Word) {n : Nat} (h : n < 32) : rotl32 (x ^^^ y) n = rotl32 x n ^^^ rotl32 y n := by
  simp only [rotl32_eq_rotateLeft _ _ h]
  ext i hi
  simp only [BitVec.getElem_xor, BitVec.getElem_rotateLeft]
  split <;> rfl

/-- The default 0 is the xor of two defaults, so the index may lie outside both lists. -/
theorem getD_zipWith_xor {n : Nat} {xs ys : List (BitVec n)} (h : xs.length = ys.length) (i : Nat) :
    (List.zipWith (· ^^^ ·) xs ys).getD i 0 = xs.getD i 0 ^^^ ys.getD i 0 := by
  by_cases hi : i < xs.length
  · simp [hi, h ▸ hi]
  · simp [hi, h ▸ hi]

theorem blockWord_zipWith_xor {b b' : List Byte} (h : b.length = b'.length) (i : Nat) :
    blockWord (List.zipWith (· ^^^ ·) b b') i = blockWord b i ^^^ blockWord b' i := by
  simp only [blockWord, getD_zipWith_xor h, be32_xor]

theorem scheduleTaps_zipWith_xor {ws ws' : List Word} (h : ws.length = ws'.length) (i : Nat) :
    scheduleTaps (List.zipWith (· ^^^ ·) ws ws') i = scheduleTaps ws i ^^^ scheduleTaps ws' i := by
  simp only [scheduleTaps, getD_zipWith_xor h]
  ac_rfl

theorem IsSchedule.xor {b b' : List Byte} {ws ws' : List Word} (hb : b.length = b'.length) (h : IsSchedule b ws)
    (h' : IsSchedule b' ws') : IsSchedule (List.zipWith (· ^^^ ·) b b') (List.zipWith (· ^^^ ·) ws ws') := by
  have hlen : ws.length = ws'.length := h.length.trans h'.length.symm
  refine ⟨by simp [h.length, h'.length], fun i hi => ?_, fun i hlo hhi => ?_⟩
  · rw [getD_zipWith_xor hlen, h.first i hi, h'.first i hi, blockWord_zipWith_xor hb]
  · rw [getD_zipWith_xor hlen, h.next i hlo hhi, h'.next i hlo hhi, scheduleTaps_zipWith_xor hlen, rotl32_xor _ _ (by decide)]

theorem isSchedule_zero : IsSchedule (List.replicate 64 0) (List.replicate 80 0) := by
  refine ⟨List.length_replicate .., fun i hi => ?_, fun i hlo hhi => ?_⟩
  · simp only [blockWord, List.getD_eq_getElem?_getD, List.getElem?_getD_replicate_default_eq]
    decide
  · simp only [scheduleTaps, List.getD_eq_getElem?_getD, List.getElem?_getD_replicate_default_eq]
    decide

/-! ### Injectivity -/

theorem blockWord_inj {b b' : List Byte} {q : Nat} (h : blockWord b q = blockWord b' q) :
    b.getD (4 * q) 0 = b'.getD (4 * q) 0 ∧ b.getD (4 * q + 1) 0 = b'.getD (4 * q + 1) 0 ∧
    b.getD (4 * q + 2) 0 = b'.getD (4 * q + 2) 0 ∧ b.getD (4 * q + 3) 0 = b'.getD (4 * q + 3) 0 :=
  be32_inj h

/-- The first 16 words of a schedule hold every byte of a 64-byte block. -/
theorem IsSchedule.block_eq {b b' : List Byte} {ws : List Word} (hb : b.length = 64) (hb' : b'.length = 64)
    (h : IsSchedule b ws) (h' : IsSchedule b' ws) : b = b' := by
  have hbyte (k : Nat) (hk : k < 64) : b.getD k 0 = b'.getD k 0 := by
    obtain ⟨q, hq, hr⟩ : ∃ q < 16, k = 4 * q ∨ k = 4 * q + 1 ∨ k = 4 * q + 2 ∨ k = 4 * q + 3 :=
      ⟨k / 4, by omega, by omega⟩
    obtain ⟨h0, h1, h2, h3⟩ := blockWord_inj ((h.first q hq).symm.trans (h'.first q hq))
    obtain rfl | rfl | rfl | rfl := hr
    exacts [h0, h1, h2, h3]
  refine List.ext_getElem (hb.trans hb'.symm) fun k hk hk' => ?_
  simpa [hk, hk'] using hbyte k (by omega)

/-- Settles O49: each property of `Expand` from the same property of `IsSchedule`. -/
theorem expandIsLinearAndInjective : Obligations.ExpandIsLinearAndInjective := by
  refine ⟨fun b b' hb hb' => ?_, (isSchedule_expand _).eq isSchedule_zero, fun b b' hb hb' h => ?_⟩
  · exact (isSchedule_expand _).eq ((isSchedule_expand b).xor (hb.trans hb'.symm) (isSchedule_expand b'))
  · refine (isSchedule_expand b).block_eq hb hb' ?_
    rw [h]
    exact isSchedule_expand b'

end Sys2Proof.Machine
end

