-- ==== Sys2Proof/Proofs/InstrLists.lean ====
section
/-! PROOFS. Running a list of instructions (30_encoding.md R59): lists joined end to end, and a rule for a list whose instruction `n` is
given by a function of `n`. -/

namespace Sys2Proof.Machine

theorem execList_append {is : List Instr} {s t : State} (h : execList is s = .next t) (js : List Instr) :
    execList (is ++ js) s = execList js t := by
  induction is generalizing s with
  | nil => cases h; rfl
  | cons i is ih =>
    simp only [execList, List.cons_append] at h ⊢
    split at h
    · exact ih h
    · cases h
    · cases h

theorem execList_singleton (i : Instr) (s : State) : execList [i] s = exec i s := by
  simp only [execList]
  split <;> simp only [*]

/-- `P n` holds after the first `n` instructions, if each keeps it. -/
theorem execList_map_range {f : Nat → Instr} {P : Nat → State → Prop} {s : State} {len : Nat} (hinit : P 0 s)
    (hstep : ∀ n t, n < len → P n t → ∃ u, exec (f n) t = .next u ∧ P (n + 1) u) :
    ∃ t, execList ((List.range len).map f) s = .next t ∧ P len t := by
  induction len with
  | zero => exact ⟨s, rfl, hinit⟩
  | succ len ih =>
    obtain ⟨t, hrun, ht⟩ := ih fun n t hn => hstep n t (by omega)
    obtain ⟨u, hexec, hu⟩ := hstep len t (by omega) ht
    refine ⟨u, ?_, hu⟩
    rw [List.range_succ, List.map_append, execList_append hrun, List.map_singleton, execList_singleton, hexec]

end Sys2Proof.Machine
end

