-- ==== Sys2Proof/Proofs/Sched.lean ====
section
/-! PROOFS. The pseudo-operation `SCHED` (42_schedule_expander.md R77): after its first `n` micro-operations the first `n` words of the
schedule buffer are those of `Expand`. -/

namespace Sys2Proof.Machine

/-! ### The words of the block in progress -/

theorem getElem?_of_split {pm b : List Byte} {n k : Nat} (hb : (split pm)[n]? = some b) (hk : k < 64) :
    b[k]? = pm[64 * n + k]? := by
  obtain ⟨-, rfl⟩ := List.getElem?_eq_some_iff.mp hb
  simp only [split, List.getElem_map, List.getElem_range]
  rw [List.getElem?_take_of_lt hk, List.getElem?_drop]

section
variable {s : State} {b : List Byte} (hb : (split (pad (message s)))[s.blk]? = some b)
include hb

theorem padByte_of_block {k : Nat} (hk : k < 64) : padByte s (64 * s.blk + k) = some (b.getD k 0) := by
  have hlen : b.length = 64 := length_of_mem_split (List.mem_of_getElem? hb)
  calc padByte s (64 * s.blk + k) = (pad (message s))[64 * s.blk + k]? := (getElem?_pad_map_range _ _ _).symm
    _ = b[k]? := (getElem?_of_split hb hk).symm
    _ = some (b.getD k 0) := by simp [hlen, hk]

theorem padWord_of_block {i : Nat} (hi : i < 16) : padWord s (64 * s.blk + 4 * i) = some (blockWord b i) := by
  simp only [padWord, Nat.add_assoc, padByte_of_block hb (show 4 * i < 64 by omega),
    padByte_of_block hb (show 4 * i + 1 < 64 by omega), padByte_of_block hb (show 4 * i + 2 < 64 by omega),
    padByte_of_block hb (show 4 * i + 3 < 64 by omega), blockWord]

end

/-! ### The schedule buffer, word by word -/

theorem State.readW_eq_getD_toList (s : State) (j : Nat) : s.readW j = s.w.toList.getD j 0 := by
  by_cases h : j < 80 <;> simp [State.readW, Vector.getD, List.getD, h]

/-- The state after the first `n` micro-operations of a `SCHED` from `s` whose schedule is `ws`. -/
structure SchedPrefix (s : State) (ws : List Word) (n : Nat) (t : State) : Prop where
  frame : t = { s with w := t.w, seq := t.seq }
  words : ∀ j < n, t.readW j = ws.getD j 0
  last : n = 80 → t.seq = 0b100_0000000

section
variable {s t : State} {ws : List Word} {n : Nat}

theorem SchedPrefix.init (s : State) (ws : List Word) : SchedPrefix s ws 0 s :=
  ⟨rfl, fun _ hj => absurd hj (Nat.not_lt_zero _), fun h => absurd h (by decide)⟩

/-- Neither the block nor the bytes of the padded message change. -/
theorem SchedPrefix.padWord_eq (h : SchedPrefix s ws n t) (i : Nat) :
    padWord t (64 * t.blk + 4 * i) = padWord s (64 * s.blk + 4 * i) := by
  rw [h.frame]
  rfl

theorem SchedPrefix.write (h : SchedPrefix s ws n t) (hn : n < 80) {v : Word} (hv : v = ws.getD n 0) {q : BitVec 10}
    (hq : n = 79 → q = 0b100_0000000) : SchedPrefix s ws (n + 1) { t.setW n v with seq := q } where
  frame := by
    rw [h.frame]
    rfl
  words j hj := by
    show (t.setW n v).readW j = ws.getD j 0
    obtain rfl | hlt : j = n ∨ j < n := by omega
    · rw [State.readW_setW_same t v hn, hv]
    · rw [State.readW_setW_other t v hlt.ne, h.words j hlt]
  last h80 := hq (by omega)

theorem SchedPrefix.toList_w (h : SchedPrefix s ws 80 t) (hws : ws.length = 80) : t.w.toList = ws := by
  refine List.ext_getElem (by simp [hws]) fun j hj hj' => ?_
  have hj80 : j < 80 := hws ▸ hj'
  simpa [State.readW_eq_getD_toList, hj80, hj'] using h.words j hj80

end

/-- An index below 128 fits in the 7 bits of the control word. -/
theorem toNat_ofNat_of_lt {n : Nat} (h : n < 128) : (BitVec.ofNat 7 n).toNat = n := by
  rw [BitVec.toNat_ofNat, Nat.mod_eq_of_lt h]

section
variable {s t : State} {b : List Byte} {ws : List Word} (hws : IsSchedule b ws)
include hws

theorem SchedPrefix.ldw {n : Nat} (h : SchedPrefix s ws n t) (hb : (split (pad (message s)))[s.blk]? = some b) (hn : n < 16) :
    ∃ u, exec (.ldw (BitVec.ofNat 7 n)) t = .next u ∧ SchedPrefix s ws (n + 1) u := by
  have hi : (BitVec.ofNat 7 n).toNat = n := toNat_ofNat_of_lt (by omega)
  have hword : padWord t (ldwBase t (BitVec.ofNat 7 n)) = some (blockWord b n) := by
    rw [ldwBase, hi, h.padWord_eq, padWord_of_block hb hn]
  refine ⟨_, exec_ldw_of_some (by omega) hword, ?_⟩
  rw [State.afterLdw_eq _ _ (by omega), hi]
  exact h.write (by omega) (hws.first n hn).symm (by omega)

theorem SchedPrefix.exp {n : Nat} (h : SchedPrefix s ws n t) (hlo : 16 ≤ n) (hhi : n < 80) :
    ∃ u, exec (.exp (BitVec.ofNat 7 n)) t = .next u ∧ SchedPrefix s ws (n + 1) u := by
  have hi : (BitVec.ofNat 7 n).toNat = n := toNat_ofNat_of_lt (by omega)
  refine ⟨_, exec_exp (by omega) (by omega), ?_⟩
  rw [State.afterExp_eq _ _ (by omega), hi, expTaps_eq_scheduleTaps (by omega) h.words]
  exact h.write hhi (hws.next n hlo hhi).symm fun h79 => if_pos h79

/-- `SCHED` is the loop of `LDW` followed by the loop of `EXP`. -/
theorem execList_pseudoSched (hb : (split (pad (message s)))[s.blk]? = some b) :
    ∃ u, execList pseudoSched s = .next u ∧ SchedPrefix s ws 80 u := by
  obtain ⟨t, hload, ht⟩ := execList_map_range (f := fun i => .ldw (BitVec.ofNat 7 i)) (len := 16)
    (SchedPrefix.init s ws) fun n t hn h => h.ldw hws hb hn
  obtain ⟨u, hexpand, hu⟩ := execList_map_range (f := fun i => .exp (BitVec.ofNat 7 (i + 16))) (len := 64)
    (P := fun n => SchedPrefix s ws (n + 16)) ht fun n t hn h => h.exp hws (by omega) (by omega)
  exact ⟨u, (execList_append hload _).trans hexpand, hu⟩

end

/-- Settles O51: `Expand` is the schedule of the block, and `SCHED` writes it word by word. -/
theorem schedComputesExpand : Obligations.SchedComputesExpand := by
  refine ⟨fun b _ => ?_, fun s b hb => ?_⟩
  · have h := isSchedule_expand b
    exact ⟨h.length, h.first, h.next⟩
  · obtain ⟨u, hrun, hu⟩ := execList_pseudoSched (isSchedule_expand b) hb
    refine ⟨u.w, ?_, hu.toList_w (isSchedule_expand b).length⟩
    rw [hrun, ← hu.last rfl, ← hu.frame]

end Sys2Proof.Machine
end

