-- ==== Sys2Proof/Proofs/Compressor.lean ====
section
/-! PROOFS. The micro-operations of 43_compressor.md as the exact next state of each. The four variants of a round go through
`exec_round`: what tells them apart is the `f` and the `K` of their index range (10_state.md R31). -/

namespace Sys2Proof.Machine

/-! ### The plain micro-operations -/

/-- Settles O15: the constants are those of `iv`. -/
theorem initResult : Obligations.InitResult :=
  ⟨decodeSeq_seqWord .init, fun _ => rfl⟩

theorem exec_binit (s : State) : exec .binit s = .next ((s.setRegs s.h.toWorking).setSeq .rnd 0) := rfl

/-- Settles O18: the new working value is that of the accumulator. -/
theorem blockInitResult : Obligations.BlockInitResult :=
  ⟨decodeSeq_seqWord .binit, exec_binit⟩

section
variable {s : State}

theorem exec_acc_last (hblk : s.blk + 1 = nblk s.len.toNat) :
    exec .acc s = .next ((s.setAcc (accumulate s.h s.regs)).setSeq .out 0) := if_pos hblk

theorem exec_acc_more (hblk : s.blk + 1 ≠ nblk s.len.toNat) :
    exec .acc s = .next (((s.setAcc (accumulate s.h s.regs)).setBlk (s.blk + 1)).setSeq .ldw 0) := if_neg hblk

end

/-- Settles O23: the block count `P(LEN) / 64` of the statement is `NBLK(LEN)`. -/
theorem accumulateResult : Obligations.AccumulateResult :=
  ⟨decodeSeq_seqWord .acc, fun _ => ⟨exec_acc_last, exec_acc_more⟩⟩

/-! ### The rounds -/

/-- The round in the library's words: the model's rotation is the library's. -/
theorem roundWith_eq (r : Working) (f k wt : Word) :
    roundWith r f k wt = ⟨r.a.rotateLeft 5 + f + r.e + k + wt, r.a, r.b.rotateLeft 30, r.c, r.d⟩ := by
  simp only [roundWith, add32, rotl32_eq_rotateLeft _ 5 (by decide), rotl32_eq_rotateLeft _ 30 (by decide)]

section
variable {t : Nat} (r : Working) (wt : Word)

theorem roundFn_ch (h : t ≤ 19) : roundFn t r wt = roundWith r (chF r.b r.c r.d) 0x5A827999 wt := by
  simp only [roundFn, fFun, kConst, if_pos (show t < 20 by omega)]

theorem roundFn_para (hlo : 20 ≤ t) (hhi : t ≤ 39) :
    roundFn t r wt = roundWith r (parF r.b r.c r.d) 0x6ED9EBA1 wt := by
  simp only [roundFn, fFun, kConst, if_neg (show ¬ t < 20 by omega), if_pos (show t < 40 by omega)]

theorem roundFn_maj (hlo : 40 ≤ t) (hhi : t ≤ 59) :
    roundFn t r wt = roundWith r (majF r.b r.c r.d) 0x8F1BBCDC wt := by
  simp only [roundFn, fFun, kConst, if_neg (show ¬ t < 20 by omega), if_neg (show ¬ t < 40 by omega),
    if_pos (show t < 60 by omega)]

theorem roundFn_parb (hlo : 60 ≤ t) : roundFn t r wt = roundWith r (parF r.b r.c r.d) 0xCA62C1D6 wt := by
  simp only [roundFn, fFun, kConst, if_neg (show ¬ t < 20 by omega), if_neg (show ¬ t < 40 by omega),
    if_neg (show ¬ t < 60 by omega)]

end

section
variable {k : BitVec 7} {i : Instr} (hd : decodeRound k = .ok i)
include hd

theorem decode_rnd : decode (.seq (0b101#3 ++ k)) = .ok i := (decodeSeq_seqWord .rnd k).trans hd

/-- The next state of round `k` in full, with its successor (45_sequencer_and_host.md R111) as a number. -/
theorem exec_round_eq (s : State) :
    exec i s = .next
      { s with
        regs := roundFn k.toNat s.regs (s.readW k.toNat)
        seq := if k.toNat = 79 then 0b110_0000000 else BitVec.ofNat 10 (5 * 128 + (k.toNat + 1)) } := by
  have hk : k.toNat < 80 := (decodeRound_ok hd).1
  rw [exec_round hd, State.afterRound]
  split
  · rfl
  · rw [State.setSeq, seqWord_succ .rnd k (by omega)]
    rfl

/-- A round before the last is followed by the next one. -/
theorem exec_round_of_lt (s : State) (hk : k.toNat < 79) :
    exec i s = .next
      { s with
        regs := roundFn k.toNat s.regs (s.readW k.toNat)
        seq := BitVec.ofNat 10 (5 * 128 + (k.toNat + 1)) } := by
  rw [exec_round_eq hd, if_neg hk.ne]

end

/-- Settles O19: the indices 0 to 19 are those of CH. -/
theorem roundChResult : Obligations.RoundChResult := by
  have hd (t : BitVec 7) (ht : t.toNat ≤ 19) : decodeRound t = .ok (.rndCh t) :=
    decodeRound_of_wf (by simp) (decide_eq_true ht)
  refine ⟨fun t ht => decode_rnd (hd t ht), fun s t ht => ?_⟩
  rw [exec_round_of_lt (hd t ht) s (by omega), roundFn_ch _ _ ht, roundWith_eq, chF]

/-- Settles O20: the indices 20 to 39 are those of the first PAR. -/
theorem roundParaResult : Obligations.RoundParaResult := by
  have hd (t : BitVec 7) (hlo : 20 ≤ t.toNat) (hhi : t.toNat ≤ 39) : decodeRound t = .ok (.rndPara t) :=
    decodeRound_of_wf (by simp) (decide_eq_true ⟨hlo, hhi⟩)
  refine ⟨fun t hlo hhi => decode_rnd (hd t hlo hhi), fun s t hlo hhi => ?_⟩
  rw [exec_round_of_lt (hd t hlo hhi) s (by omega), roundFn_para _ _ hlo hhi, roundWith_eq, parF]

/-- Settles O21: the indices 40 to 59 are those of MAJ. -/
theorem roundMajResult : Obligations.RoundMajResult := by
  have hd (t : BitVec 7) (hlo : 40 ≤ t.toNat) (hhi : t.toNat ≤ 59) : decodeRound t = .ok (.rndMaj t) :=
    decodeRound_of_wf (by simp) (decide_eq_true ⟨hlo, hhi⟩)
  refine ⟨fun t hlo hhi => decode_rnd (hd t hlo hhi), fun s t hlo hhi => ?_⟩
  rw [exec_round_of_lt (hd t hlo hhi) s (by omega), roundFn_maj _ _ hlo hhi, roundWith_eq, majF]

/-- Settles O22: the indices 60 to 79 are those of the second PAR, and the last of them has the successor `ACC`. -/
theorem roundParbResult : Obligations.RoundParbResult := by
  have hd (t : BitVec 7) (hlo : 60 ≤ t.toNat) (hhi : t.toNat ≤ 79) : decodeRound t = .ok (.rndParb t) :=
    decodeRound_of_wf (by simp) (decide_eq_true ⟨hlo, hhi⟩)
  refine ⟨fun t hlo hhi => decode_rnd (hd t hlo hhi), fun s t hlo hhi => ?_⟩
  rw [exec_round_eq (hd t hlo hhi), roundFn_parb _ _ hlo, roundWith_eq, parF]

/-- Settles O50: the control word decodes to the round of its index, whichever variant that is. -/
theorem everyRoundIsTheRoundFunction : Obligations.EveryRoundIsTheRoundFunction := by
  intro s t ht hb hf hseq
  have hk : (BitVec.ofNat 7 t).toNat = t := toNat_ofNat_of_lt (by omega)
  have hq : s.seq = seqWord .rnd (BitVec.ofNat 7 t) := by rw [seqWord_eq_ofNat, hk, hseq]; rfl
  obtain ⟨i, hd⟩ := decodeRound_of_lt (k := BitVec.ofNat 7 t) (by omega)
  have hturn : coreTurn s = exec i s := coreTurn_of_ok hb hf (by rw [hq, decodeSeq_seqWord]; exact hd)
  exact ⟨_, by rw [hturn, exec_round_eq hd, hk, Nat.add_assoc], rfl⟩

end Sys2Proof.Machine
end

