-- ==== Sys2Proof/Proofs/Rounds.lean ====
section
/-! PROOFS. The pseudo-operation `ROUNDS` between `BINIT` and `ACC` (43_compressor.md R92, R93): after its first `n` micro-operations
the working registers are `S_n`. -/

namespace Sys2Proof.Machine

/-- `RND n` is the variant that the decoder selects for index `n` (30_encoding.md R49). -/
theorem decodeRound_rndOp {n : Nat} (hn : n < 80) : decodeRound (BitVec.ofNat 7 n) = .ok (rndOp n) := by
  unfold decodeRound rndOp
  rw [toNat_ofNat_of_lt (by omega)]
  split_ifs <;> rfl

/-- The state after `BINIT` and the first `n` rounds from `s`: only the working registers and `seq` differ from `s`. -/
structure RoundsPrefix (s : State) (n : Nat) (t : State) : Prop where
  frame : t = { s with regs := t.regs, seq := t.seq }
  regs : t.regs = roundsFrom s.h s.w.toList n

section
variable {s t : State} {n : Nat}

theorem RoundsPrefix.binit (s : State) : RoundsPrefix s 0 ((s.setRegs s.h.toWorking).setSeq .rnd 0) :=
  ⟨rfl, rfl⟩

/-- The schedule buffer that the rounds read is that of `s`. -/
theorem RoundsPrefix.readW_eq (h : RoundsPrefix s n t) (j : Nat) : t.readW j = s.w.toList.getD j 0 := by
  rw [h.frame]
  exact s.readW_eq_getD_toList j

theorem RoundsPrefix.rnd (h : RoundsPrefix s n t) (hn : n < 80) :
    ∃ u, exec (rndOp n) t = .next u ∧ RoundsPrefix s (n + 1) u := by
  have hk : (BitVec.ofNat 7 n).toNat = n := toNat_ofNat_of_lt (by omega)
  refine ⟨_, exec_round_eq (decodeRound_rndOp hn) t, ?_, ?_⟩
  · rw [h.frame]
  · simp only [hk, h.regs, h.readW_eq, roundsFrom]

/-- `ACC` after all the rounds: `Compress(h, w)`, and nothing of the schedule is written. -/
theorem RoundsPrefix.acc (h : RoundsPrefix s 80 t) :
    ∃ u, exec .acc t = .next u ∧ u.h = compress s.h s.w.toList ∧ u.w = s.w := by
  have hh : accumulate t.h t.regs = compress s.h s.w.toList := by rw [compress, ← h.regs, h.frame]
  have hw : t.w = s.w := by rw [h.frame]
  by_cases hblk : t.blk + 1 = nblk t.len.toNat
  · exact ⟨_, exec_acc_last hblk, hh, hw⟩
  · exact ⟨_, exec_acc_more hblk, hh, hw⟩

end

/-- `BINIT; ROUNDS`. -/
theorem execList_pseudoRounds (s : State) :
    ∃ t, execList ([.binit] ++ pseudoRounds) s = .next t ∧ RoundsPrefix s 80 t := by
  obtain ⟨t, hrun, ht⟩ := execList_map_range (f := rndOp) (len := 80) (RoundsPrefix.binit s) fun n t hn h => h.rnd hn
  have hbinit := (execList_singleton .binit s).trans (exec_binit s)
  exact ⟨t, (execList_append hbinit _).trans hrun, ht⟩

/-- Settles O52: `BINIT` and the 80 rounds reach `S_80`, and `ACC` adds it into the accumulator. -/
theorem roundsComputeCompress : Obligations.RoundsComputeCompress := by
  intro s
  obtain ⟨t, hrun, ht⟩ := execList_pseudoRounds s
  obtain ⟨u, hacc, hh, hw⟩ := ht.acc
  exact ⟨u, by rw [execList_append hrun, execList_singleton, hacc], hh, hw⟩

end Sys2Proof.Machine
end

