-- ==== Sys2Proof/Proofs/DigestAssembly.lean ====
section
/-! PROOFS. Digest Assembly (44_digest_assembly.md): the layout of `Ser` (R95), its inverse `deser`, the micro-operation `OUT` (R96),
and that no other turn touches `DIGEST` or sets `DONE` (10_state.md R29). -/

namespace Sys2Proof.Machine

/-! ### The layout of `Ser` -/

/-- Byte `4k + q` of `Ser(H)` is byte `q` of word `k`, most significant first (R95). -/
theorem ser_getD (x : Acc) {q : Nat} (hq : q < 4) :
    (ser x).getD q 0 = x.h0.extractLsb' (24 - 8 * q) 8 ∧ (ser x).getD (4 + q) 0 = x.h1.extractLsb' (24 - 8 * q) 8 ∧
    (ser x).getD (8 + q) 0 = x.h2.extractLsb' (24 - 8 * q) 8 ∧ (ser x).getD (12 + q) 0 = x.h3.extractLsb' (24 - 8 * q) 8 ∧
    (ser x).getD (16 + q) 0 = x.h4.extractLsb' (24 - 8 * q) 8 := by
  simp only [digest_getD_toList, ser_toList]
  interval_cases q <;> exact ⟨rfl, rfl, rfl, rfl, rfl⟩

/-- Settles O24: the digest of the next state is `Ser(h)`, whose layout is `ser_getD`. -/
theorem outResult : Obligations.OutResult :=
  ⟨decodeSeq_seqWord .out, fun s => ⟨ser s.h, rfl, fun _ => ser_getD s.h⟩⟩

/-! ### `Ser` and its inverse -/

/-- A word is `be32` of its four bytes (00_scope.md R14). -/
theorem be32_extractLsb' (x : Word) :
    be32 (x.extractLsb' 24 8) (x.extractLsb' 16 8) (x.extractLsb' 8 8) (x.extractLsb' 0 8) = x := by
  apply BitVec.eq_of_toNat_eq
  simp only [toNat_be32, BitVec.extractLsb'_toNat, Nat.shiftRight_eq_div_pow]
  omega

/-- The four bytes of `be32` are its arguments, because they are bytes of the same word. -/
theorem extractLsb'_be32 (b0 b1 b2 b3 : Byte) :
    (be32 b0 b1 b2 b3).extractLsb' 24 8 = b0 ∧ (be32 b0 b1 b2 b3).extractLsb' 16 8 = b1 ∧
    (be32 b0 b1 b2 b3).extractLsb' 8 8 = b2 ∧ (be32 b0 b1 b2 b3).extractLsb' 0 8 = b3 :=
  be32_inj (be32_extractLsb' _)

/-- Word `k` of a string of 20 bytes, big-endian. -/
def digestWord (v : Vector Byte 20) (k : Nat) : Word :=
  be32 (v.getD (4 * k) 0) (v.getD (4 * k + 1) 0) (v.getD (4 * k + 2) 0) (v.getD (4 * k + 3) 0)

/-- The accumulator value that a string of 20 bytes serialises. -/
def deser (v : Vector Byte 20) : Acc :=
  ⟨digestWord v 0, digestWord v 1, digestWord v 2, digestWord v 3, digestWord v 4⟩

theorem deser_ser (x : Acc) : deser (ser x) = x := by
  simp only [deser, digestWord, digest_getD_toList, ser_toList]
  simp [be32_extractLsb']

theorem ser_deser (v : Vector Byte 20) : ser (deser v) = v := by
  refine Vector.toList_inj.mp (List.ext_getElem (by simp) fun i hi hi' => ?_)
  simp only [ser_toList, deser, digestWord, extractLsb'_be32, digest_getD_toList]
  simp only [Vector.length_toList] at hi'
  interval_cases i <;> simp

/-- Settles O48: `deser` is the inverse of `ser` on both sides. -/
theorem serialisationIsABijection : Obligations.SerialisationIsABijection :=
  ⟨fun x _ => ser_getD x, Function.LeftInverse.injective deser_ser, fun v => ⟨deser v, ser_deser v⟩⟩

/-! ### Which turns touch the result -/

/-- Of the micro-operations only `OUT` changes `DIGEST` or `DONE`, and it publishes `Ser(h)`. -/
theorem MicroStep.publishes {s t : State} {i : Instr} (hm : MicroStep s i t) (hne : t.digest ≠ s.digest ∨ t.done ≠ s.done) :
    i = .out ∧ t = (s.publish (ser s.h)).setSeq .idle 0 := by
  obtain rfl := hm.digest_ne hne
  cases hm with
  | out => exact ⟨rfl, rfl⟩
  | rnd hi | rndLast hi => simpa using (decodeRound_ok hi).2

/-- A transaction leaves `DIGEST` alone and never sets `DONE` (45_sequencer_and_host.md R99). -/
theorem HostStep.result {s t : State} {x : HostTxn} (hs : HostStep s x t) :
    t.digest = s.digest ∧ (t.done = true → s.done = true) := by
  cases hs <;> simp

/-- Settles O36: a turn of the host and a turn of the core without `OUT` keep the result; `OUT` runs in a busy core at its own word. -/
theorem digestAndDoneChangeTogether : Obligations.DigestAndDoneChangeTogether := by
  intro s t h hnr hc
  obtain ⟨-, h⟩ | ⟨x, -, h⟩ | ⟨hr, -⟩ := step_next h
  · have hne : t.digest ≠ s.digest ∨ t.done ≠ s.done := hc.imp_right fun ⟨hs, ht⟩ => by simp [hs, ht]
    obtain ⟨-, rfl⟩ | ⟨-, hb, i, he, hm⟩ | ⟨-, -, r, -, rfl⟩ := coreTurn_next h
    · simp at hne
    · obtain ⟨rfl, rfl⟩ := hm.publishes hne
      exact ⟨hb, (Raw.seq.inj he).symm, rfl, rfl, rfl⟩
    · simp at hne
  · obtain ⟨hdigest, hdone⟩ := (hostStep_of_hostTurn h).result
    obtain hd | ⟨hsd, htd⟩ := hc
    · exact absurd hdigest hd
    · exact absurd (hdone htd) (by simp [hsd])
  · exact absurd hr hnr

end Sys2Proof.Machine
end

