-- ==== Sys2Proof/Proofs/CoreRun.lean ====
section
/-! PROOFS. From lists of micro-operations to what the core does by itself (45_sequencer_and_host.md R107 to R113). `CoreRun is s u` says
that from `s` the core performs exactly `is` and ends in `u`; a list whose instructions succeed one another and that runs without a fault
is such a run (`coreRun_of_execList`). -/

namespace Sys2Proof

/-- The micro-operation that follows one with a single successor (R107 to R111). -/
def Instr.succ? : Instr → Option Instr
  | .init => some (.ldw 0)
  | .ldw k => some (if k.toNat < 15 then .ldw (k + 1) else .exp 16)
  | .exp k => some (if k.toNat < 79 then .exp (k + 1) else .binit)
  | .binit => some (.rndCh 0)
  | .rndCh k | .rndPara k | .rndMaj k | .rndParb k => some (if k.toNat < 79 then Machine.rndOp (k.toNat + 1) else .acc)
  | _ => none

namespace Machine

/-! ### The successor of a micro-operation -/

theorem succ?_round {k : BitVec 7} {i : Instr} (hi : decodeRound k = .ok i) :
    i.succ? = some (if k.toNat < 79 then rndOp (k.toNat + 1) else .acc) := by
  obtain ⟨-, rfl | rfl | rfl | rfl⟩ := decodeRound_ok hi <;> rfl

/-- Unless it faults, a micro-operation with a single successor leaves `BUSY` alone and the word of that successor in `seq`. -/
theorem MicroStep.seq_succ? {s t : State} {i j : Instr} (hm : MicroStep s i t) (hj : i.succ? = some j) (hf : t.fault = false) :
    t.busy = s.busy ∧ encode j = .seq t.seq := by
  cases hm with
  | idle | idleFault | acc | accLast | out => cases hj
  | ldwFault => cases hf
  | init | binit => cases hj; exact ⟨rfl, rfl⟩
  | ldw hk | exp _ hk => simp only [Instr.succ?, hk, if_true] at hj; cases hj; exact ⟨rfl, rfl⟩
  | ldwLast hk | expLast hk => simp only [Instr.succ?, hk] at hj; cases hj; exact ⟨rfl, rfl⟩
  | rnd hi hk =>
    rw [succ?_round hi, if_pos hk] at hj
    cases hj
    refine ⟨rfl, ?_⟩
    rw [encode_of_decodeRound (decodeRound_rndOp (by omega)), BitVec.ofNat_add, BitVec.ofNat_toNat, BitVec.setWidth_eq]
    rfl
  | rndLast hi hk => rw [succ?_round hi, hk] at hj; cases hj; exact ⟨rfl, rfl⟩

/-- Each instruction of the list is followed by its successor. -/
def Sequenced (is : List Instr) : Prop := is.IsChain fun i j => i.succ? = some j

theorem sequenced_map_range {f : Nat → Instr} {len : Nat} (h : ∀ n < len - 1, (f n).succ? = some (f (n + 1))) :
    Sequenced ((List.range len).map f) :=
  (List.isChain_map f).mpr ((List.isChain_range _ _).mpr h)

theorem Sequenced.append {is js : List Instr} (hi : Sequenced is) (hj : Sequenced js)
    (h : ∀ i ∈ is.getLast?, ∀ j ∈ js.head?, i.succ? = some j) : Sequenced (is ++ js) :=
  List.IsChain.append hi hj h

theorem sequenced_pseudoSched : Sequenced pseudoSched :=
  (sequenced_map_range (by decide)).append (sequenced_map_range (by decide)) (by decide)

theorem sequenced_pseudoRounds : Sequenced pseudoRounds := sequenced_map_range (by decide)

theorem sequenced_pseudoBlock : Sequenced pseudoBlock :=
  ((sequenced_pseudoSched.append (List.isChain_singleton _) (by decide)).append sequenced_pseudoRounds (by decide)).append
    (List.isChain_singleton _) (by decide)

/-! ### Runs of the core -/

/-- In its next turns the core performs the micro-operations of the list, and they lead from the first state to the second. -/
inductive CoreRun : List Instr → State → State → Prop where
  | nil (s : State) : CoreRun [] s s
  | cons {i : Instr} {is : List Instr} {s t u : State} (hbusy : s.busy = true) (hfault : s.fault = false)
      (hdec : decodeSeq s.seq = .ok i) (hexec : exec i s = .next t) (hrest : CoreRun is t u) : CoreRun (i :: is) s u

theorem CoreRun.singleton {i : Instr} {s t : State} (hb : s.busy = true) (hf : s.fault = false) (hd : decodeSeq s.seq = .ok i)
    (h : exec i s = .next t) : CoreRun [i] s t :=
  .cons hb hf hd h (.nil t)

theorem CoreRun.append {is js : List Instr} {s t u : State} (h : CoreRun is s t) (h' : CoreRun js t u) :
    CoreRun (is ++ js) s u := by
  induction h with
  | nil => exact h'
  | cons hb hf hd hexec _ ih => exact .cons hb hf hd hexec (ih h')

/-- `FAULT` is sticky (60_exceptions.md R130): no instruction clears it. -/
theorem exec_fault {i : Instr} {s t : State} (h : exec i s = .next t) (hf : s.fault = true) : t.fault = true := by
  cases he : encode i with
  | seq q => cases microStep_of_exec he h <;> simp [hf]
  | host x =>
    have hd : decodeHost x = .ok i := decode_of_encode_eq he (wf_of_exec_next h)
    cases hostStep_of_hostTurn ((hostTurn_of_ok hd s).trans h) <;> simp [hf]

theorem execList_cons_next {i : Instr} {is : List Instr} {s u : State} (h : execList (i :: is) s = .next u) :
    ∃ t, exec i s = .next t ∧ execList is t = .next u := by
  simp only [execList] at h
  split at h
  · exact ⟨_, ‹_›, h⟩
  · cases h
  · cases h

theorem execList_fault {is : List Instr} {s u : State} (h : execList is s = .next u) (hf : s.fault = true) : u.fault = true := by
  induction is generalizing s with
  | nil => cases h; exact hf
  | cons i is ih =>
    obtain ⟨t, hexec, hrest⟩ := execList_cons_next h
    exact ih hrest (exec_fault hexec hf)

/-- A busy core at the first instruction of a sequenced list performs the whole list, if the list runs without a fault. -/
theorem coreRun_of_execList {is : List Instr} {s u : State} (hseq : Sequenced is)
    (hstart : ∀ i ∈ is.head?, s.busy = true ∧ encode i = .seq s.seq) (h : execList is s = .next u) (hf : u.fault = false) :
    CoreRun is s u := by
  induction is generalizing s with
  | nil => cases h; exact .nil _
  | cons i is ih =>
    have hfs : s.fault = false := Bool.eq_false_iff.mpr fun hs => by simp [execList_fault h hs] at hf
    obtain ⟨hb, he⟩ := hstart i rfl
    obtain ⟨hnext, hseq⟩ := List.isChain_cons.mp hseq
    obtain ⟨t, hexec, hrest⟩ := execList_cons_next h
    have hft : t.fault = false := Bool.eq_false_iff.mpr fun ht => by simp [execList_fault hrest ht] at hf
    refine .cons hb hfs (decode_of_encode_eq he (wf_of_exec_next hexec)) hexec (ih hseq (fun j hj => ?_) hrest)
    obtain ⟨hbt, hej⟩ := (microStep_of_exec he hexec).seq_succ? (hnext j hj) hft
    exact ⟨hbt.trans hb, hej⟩

theorem runSteps_succ {s t : State} (h : step s = .next t) (n : Nat) : runSteps (n + 1) s = runSteps n t := by
  simp only [runSteps, Host.Core.run, Host.Check.core_step, h]
  rfl

/-- An unfaulted core has the turn when the queue is empty (log 5). -/
theorem step_of_empty {s : State} (hq : s.inbox = []) (hf : s.fault = false) : step s = coreTurn s := by
  simp [step, takeTurn, hq, hf]

/-- With no other turn queued, the steps of the machine are those of the run. -/
theorem CoreRun.runSteps {is : List Instr} {s u : State} (h : CoreRun is s u) (hq : s.inbox = []) :
    runSteps is.length s = .next u := by
  induction h with
  | nil => rfl
  | cons hb hf hd hexec _ ih =>
    obtain ⟨-, -, -, -, hinbox, -⟩ := (microStep_of_exec (encode_of_decodeSeq hd) hexec).inputs
    rw [List.length_cons, runSteps_succ ((step_of_empty hq hf).trans ((coreTurn_of_ok hb hf hd).trans hexec))]
    exact ih (hinbox.trans hq)

end Machine

end Sys2Proof
end

