-- ==== Sys2Proof/Proofs/HashRun.lean ====
section
/-! PROOFS. The run that an accepted start causes (45_sequencer_and_host.md R113, R116): the core performs `HASH`, block by block, and
publishes the digest of the message alone (44_digest_assembly.md R97). -/

namespace Sys2Proof.Machine

/-! ### One block -/

/-- The next state of `ACC` in full: after the last block the control word is that of `OUT`, before it the next block follows (R112). -/
theorem exec_acc (s : State) :
    exec .acc s = .next
      { s with
        h := accumulate s.h s.regs
        blk := if s.blk + 1 = nblk s.len.toNat then s.blk else s.blk + 1
        seq := if s.blk + 1 = nblk s.len.toNat then seqWord .out 0 else seqWord .ldw 0 } := by
  by_cases hblk : s.blk + 1 = nblk s.len.toNat
  · simp only [exec_acc_last hblk, if_pos hblk]; rfl
  · simp only [exec_acc_more hblk, if_neg hblk]; rfl

/-- `BLOCK` compresses the block in progress into the accumulator (43_compressor.md R93); beside it only the working registers, the
schedule, the block counter and the control word change. -/
theorem execList_pseudoBlock {s : State} {b : List Byte} (hb : (split (pad (message s)))[s.blk]? = some b) :
    ∃ r w, execList pseudoBlock s = .next
      { s with
        regs := r
        w := w
        h := compress s.h (expand b)
        blk := if s.blk + 1 = nblk s.len.toNat then s.blk else s.blk + 1
        seq := if s.blk + 1 = nblk s.len.toNat then seqWord .out 0 else seqWord .ldw 0 } := by
  obtain ⟨t, hsched, ht⟩ := execList_pseudoSched (isSchedule_expand b) hb
  obtain ⟨u, hrounds, hu⟩ := execList_pseudoRounds t
  have hprefix : execList (pseudoSched ++ ([.binit] ++ pseudoRounds)) s = .next u := (execList_append hsched _).trans hrounds
  have hrun : execList pseudoBlock s = exec .acc u := by
    rw [pseudoBlock, List.append_assoc pseudoSched, execList_append hprefix, execList_singleton]
  have hh : accumulate u.h u.regs = compress s.h (expand b) := by
    calc accumulate u.h u.regs = compress t.h t.w.toList := by rw [compress, ← hu.regs, hu.frame]
      _ = compress s.h (expand b) := by rw [ht.toList_w (isSchedule_expand b).length, ht.frame]
  exact ⟨u.regs, u.w, by rw [hrun, exec_acc, hh, hu.frame, ht.frame]⟩

/-! ### All the blocks -/

/-- The state of a run from `s` after `n` blocks: the accumulator is that of R93, and the next control word is `LDW 0` of block `n`, or
`OUT` after the last block. `INIT` gives the state after 0 blocks. -/
def State.afterBlocks (s : State) (n : Nat) (r : Working) (w : Vector Word 80) : State :=
  { s with
    regs := r
    w := w
    h := hashBlocks ((split (pad (message s))).take n)
    blk := if n = nblk s.len.toNat then n - 1 else n
    seq := if n = nblk s.len.toNat then seqWord .out 0 else seqWord .ldw 0 }

/-- The state after all the blocks and `OUT`. -/
def State.afterHash (s : State) (r : Working) (w : Vector Word 80) : State :=
  ((s.afterBlocks (nblk s.len.toNat) r w).publish (sha1 (message s))).setSeq .idle 0

theorem exec_init_afterBlocks (s : State) : exec .init s = .next (s.afterBlocks 0 s.regs s.w) := by
  simp only [State.afterBlocks, if_neg (nblk_pos _).ne]
  rfl

theorem exec_out_afterBlocks (s : State) (r : Working) (w : Vector Word 80) :
    exec .out (s.afterBlocks (nblk s.len.toNat) r w) = .next (s.afterHash r w) := by
  have hall : (split (pad (message s))).take (nblk s.len.toNat) = split (pad (message s)) :=
    List.take_of_length_le (by rw [length_split, length_pad, length_message, nblk])
  have hh : (s.afterBlocks (nblk s.len.toNat) r w).h = hashBlocks (split (pad (message s))) := congrArg hashBlocks hall
  rw [State.afterHash, sha1, ← hh]
  rfl

/-- One more block compressed (R93). -/
theorem hashBlocks_take_succ {bs : List (List Byte)} {b : List Byte} {n : Nat} (hb : bs[n]? = some b) :
    hashBlocks (bs.take (n + 1)) = compress (hashBlocks (bs.take n)) (expand b) := by
  rw [List.take_add_one, hb, hashBlocks, List.foldl_append]
  rfl

section
variable {s : State} (hb : s.busy = true) (hf : s.fault = false)
include hb hf

theorem coreRun_pseudoBlock {n : Nat} (hn : n < nblk s.len.toNat) (r : Working) (w : Vector Word 80) :
    ∃ r' w', CoreRun pseudoBlock (s.afterBlocks n r w) (s.afterBlocks (n + 1) r' w') := by
  have hlen : n < (split (pad (message s))).length := by
    rwa [length_split, length_pad, length_message]
  obtain ⟨b, hget⟩ : ∃ b, (split (pad (message s)))[n]? = some b := ⟨_, List.getElem?_eq_getElem hlen⟩
  have hblk : (s.afterBlocks n r w).blk = n := if_neg hn.ne
  obtain ⟨r', w', hrun⟩ := execList_pseudoBlock (s := s.afterBlocks n r w) (b := b) (by rw [hblk]; exact hget)
  refine ⟨r', w', coreRun_of_execList sequenced_pseudoBlock ?_ (hrun.trans ?_) hf⟩
  · rintro _ ⟨⟩
    exact ⟨hb, congrArg Raw.seq (if_neg hn.ne).symm⟩
  · simp only [State.afterBlocks, hashBlocks_take_succ hget, if_neg hn.ne, Nat.add_sub_cancel]

theorem coreRun_blocks {n : Nat} (hn : n ≤ nblk s.len.toNat) (r : Working) (w : Vector Word 80) :
    ∃ r' w', CoreRun (List.replicate n pseudoBlock).flatten (s.afterBlocks 0 r w) (s.afterBlocks n r' w') := by
  induction n with
  | zero => exact ⟨r, w, .nil _⟩
  | succ n ih =>
    obtain ⟨r₁, w₁, hrun⟩ := ih (by omega)
    obtain ⟨r₂, w₂, hblock⟩ := coreRun_pseudoBlock hb hf hn r₁ w₁
    refine ⟨r₂, w₂, ?_⟩
    rw [List.replicate_succ', List.flatten_concat]
    exact hrun.append hblock

/-- A busy core at `INIT` performs exactly `HASH` (R113). -/
theorem coreRun_pseudoHash (hq : s.seq = seqWord .init 0) :
    ∃ r w, CoreRun (pseudoHash s.len.toNat) s (s.afterHash r w) := by
  obtain ⟨r, w, hblocks⟩ := coreRun_blocks hb hf le_rfl s.regs s.w
  have hlast : (s.afterBlocks (nblk s.len.toNat) r w).seq = seqWord .out 0 := if_pos rfl
  have hinit : CoreRun [.init] s (s.afterBlocks 0 s.regs s.w) :=
    .singleton hb hf (by rw [hq]; exact decode_encode (i := .init) rfl) (exec_init_afterBlocks s)
  have hout : CoreRun [.out] (s.afterBlocks (nblk s.len.toNat) r w) (s.afterHash r w) :=
    .singleton hb hf (by rw [hlast]; exact decode_encode (i := .out) rfl) (exec_out_afterBlocks s r w)
  exact ⟨r, w, (hinit.append hblocks).append hout⟩

end

/-- The number of core steps of a run (R115). -/
theorem length_pseudoHash (len : Nat) : (pseudoHash len).length = 162 * nblk len + 2 := by
  have hblock : pseudoBlock.length = 162 := rfl
  simp [pseudoHash, hblock, Nat.mul_comm]

/-! ### From the start to the digest -/

section
variable {s : State} (hb : s.busy = false) (hf : s.fault = false) (hlen : lenAccepted s = true)
include hb hf hlen

/-- An accepted start (R103, R104). -/
theorem exec_start : exec (.hWrctrl 1) s = .next s.clearResult.beginRun := by
  have hfree : locked s = false := locked_eq_false.mpr ⟨hb, hf⟩
  have hbit : startBit 1 = true := by decide
  simp only [exec, execHWrctrl, hbit, hfree, Bool.not_false, Bool.and_self, if_true, startRun, hlen]

/-- The step of an accepted start: its transaction was the only turn queued. -/
theorem step_start : step { s with inbox := [.host hostStart] } = .next (s.setInbox []).clearResult.beginRun := by
  rw [step_of_host rfl, hostTurn_of_ok (i := .hWrctrl 1) rfl]
  exact exec_start (s := s.setInbox []) hb hf hlen

/-- The run of an accepted start is done after its `162 * NBLK(LEN) + 2` core steps, with the digest of the message (R115, R116). -/
theorem runSteps_start : ∃ t, runSteps (162 * nblk s.len.toNat + 3) { s with inbox := [.host hostStart] } = .next t ∧
    t.busy = false ∧ t.done = true ∧ t.fault = false ∧ t.digest = sha1 (message s) := by
  obtain ⟨r, w, hrun⟩ := coreRun_pseudoHash (s := (s.setInbox []).clearResult.beginRun) rfl hf rfl
  have hsteps := hrun.runSteps rfl
  rw [length_pseudoHash] at hsteps
  exact ⟨_, (runSteps_succ (step_start hb hf hlen) _).trans hsteps, rfl, rfl, hf, rfl⟩

end

/-- Settles O57: both runs end with the digest of their message, and the message is the bytes below `LEN`. -/
theorem digestDependsOnTheMessageAlone : Obligations.DigestDependsOnTheMessageAlone := by
  intro s s' hb hf hlen hb' hf' hlen' hl hm
  obtain ⟨t, hrun, -, hdone, -, hdigest⟩ := runSteps_start hb hf hlen
  obtain ⟨t', hrun', -, hdone', -, hdigest'⟩ := runSteps_start hb' hf' hlen'
  refine ⟨t, t', hrun, by rw [hl]; exact hrun', hdone, hdone', ?_⟩
  rw [hdigest, hdigest', message_congr hl.symm fun j hj => (hm j hj).symm]

end Sys2Proof.Machine
end

