-- ==== Sys2Proof/Proofs/HostTransactions.lean ====
section
/-! PROOFS. The host transactions (45_sequencer_and_host.md R99 to R105, R117 to R121): what each one does, that every one of them
answers, and what a lock leaves of it. -/

namespace Sys2Proof.Machine

/-! ### Reads -/

/-- The status word packs the flags from bit 0 up (30_encoding.md R50). -/
theorem toNat_statusWord (s : State) :
    (statusWord s).toNat =
      s.busy.toNat + 2 * s.done.toNat + 4 * s.fault.toNat + 8 * s.lenerr.toNat + 16 * s.fcode.toNat := by
  unfold statusWord
  generalize s.fcode = c, s.lenerr = l, s.fault = f, s.done = d, s.busy = b
  revert c l f d b
  decide

/-- Settles O25: the value read is the status word, zero-extended. -/
theorem readStatusResult : Obligations.ReadStatusResult := by
  refine ⟨fun _ _ => rfl, fun s => ?_⟩
  rw [← toNat_statusWord, BitVec.ofNat_toNat]
  rfl

/-- Settles O27: the arm of the transaction as it stands. -/
theorem readLengthResult : Obligations.ReadLengthResult :=
  ⟨fun _ _ => rfl, fun _ => rfl⟩

section
variable (s : State) {n : Nat}

theorem digestRead_of_done (hn : n < 20) (hd : s.done = true) : digestRead s n = zext64 (s.digest.getD n 0) := by
  rw [digestRead, if_pos hn, if_pos hd]

/-- While `DONE = 0` a read gives the free byte (R29; log 3). -/
theorem digestRead_of_not_done (hn : n < 20) (hd : s.done = false) :
    digestRead s n = zext64 (Config.freeDigestByte s.resets s.starts n) := by
  rw [digestRead, if_pos hn, if_neg (Bool.eq_false_iff.mp hd)]

theorem digestRead_of_ge (hn : 20 ≤ n) : digestRead s n = 0 :=
  if_neg hn.not_gt

theorem exec_hRddigest {a v : BitVec 64} (hv : digestRead s a.toNat = v) : exec (.hRddigest a) s = .next (s.setRdata v) := by
  rw [← hv]
  rfl

end

/-- Settles O30: one clause for each case of `digestRead`. -/
theorem readDigestResult : Obligations.ReadDigestResult :=
  ⟨fun _ _ => rfl, fun s _ => ⟨fun hn hd => exec_hRddigest s (digestRead_of_done s hn hd),
    fun hn hd => ⟨_, exec_hRddigest s (digestRead_of_not_done s hn hd)⟩, fun hn => exec_hRddigest s (digestRead_of_ge s hn)⟩⟩

/-! ### Writes -/

/-- A locked core is busy or faulted (R100). -/
theorem locked_eq_true {s : State} : locked s = true ↔ s.busy = true ∨ s.fault = true := by
  simp [locked]

/-- The length test of a start (R104). -/
theorem lenAccepted_iff {s : State} : lenAccepted s = true ↔ s.len.toNat ≤ 2 ^ 61 - 1 ∧ s.len.toNat ≤ s.msgCap := by
  simp only [lenAccepted, Bool.and_eq_true, decide_eq_true_eq]
  rfl

section
variable {s : State} {v : BitVec 64}

theorem exec_hWrctrl_ignored (h : startBit v = false ∨ locked s = true) : exec (.hWrctrl v) s = .next s := by
  obtain h | h := h <;> simp [exec, execHWrctrl, h]

theorem exec_hWrctrl_start (hbit : startBit v = true) (hfree : locked s = false) :
    exec (.hWrctrl v) s = .next (startRun s) := by
  simp [exec, execHWrctrl, hbit, hfree]

theorem startRun_of_accepted (h : lenAccepted s = true) : startRun s = s.clearResult.beginRun := if_pos h

theorem startRun_of_refused (h : ¬ lenAccepted s = true) : startRun s = s.clearResult.markLenErr := if_neg h

end

/-- Settles O26: ignored by the bit or the lock, else the start that the length test selects. -/
theorem startCommandResult : Obligations.StartCommandResult := by
  refine ⟨fun _ _ => rfl, fun s v => ⟨fun h => ?_, fun hbit hb hf hmax hcap => ?_, fun hbit hb hf hlen => ?_⟩⟩
  · exact exec_hWrctrl_ignored (h.imp_right locked_eq_true.mpr)
  · rw [exec_hWrctrl_start hbit (locked_eq_false.mpr ⟨hb, hf⟩), startRun_of_accepted (lenAccepted_iff.mpr ⟨hmax, hcap⟩)]
    rfl
  · rw [exec_hWrctrl_start hbit (locked_eq_false.mpr ⟨hb, hf⟩), startRun_of_refused (by rw [lenAccepted_iff]; omega)]
    rfl

/-- Settles O28: the lock alone decides. -/
theorem writeLengthResult : Obligations.WriteLengthResult := by
  refine ⟨fun _ _ => rfl, fun s l => ⟨fun hfree => ?_, fun hlock => ?_⟩⟩
  · simp only [exec, execHWrlen, locked_eq_false.mpr hfree]
    rfl
  · simp only [exec, execHWrlen, locked_eq_true.mpr hlock, if_true]

section
variable {s : State} {a v : BitVec 64}

theorem exec_hWrmsg_store (hfree : locked s = false) (ha : a.toNat < s.msgCap) :
    exec (.hWrmsg a v) s = .next (s.writeMsg a.toNat (msgData v)) := by
  simp [exec, execHWrmsg, hfree, ha]

theorem exec_hWrmsg_ignored (h : locked s = true ∨ s.msgCap ≤ a.toNat) : exec (.hWrmsg a v) s = .next s := by
  obtain h | h := h <;> simp [exec, execHWrmsg, h]

end

/-- Settles O29: the store changes `MSG` alone, and by the rules of the memory one byte of it. -/
theorem writeMessageResult : Obligations.WriteMessageResult := by
  refine ⟨fun _ _ => rfl, fun s a v => ⟨fun ⟨hb, hf, ha⟩ => ?_, fun h => ?_⟩⟩
  · refine ⟨Memory.set s.msg a.toNat (msgData v), exec_hWrmsg_store (locked_eq_false.mpr ⟨hb, hf⟩) ha, ?_, fun x hx => ?_⟩
    · calc (s.writeMsg a.toNat (msgData v)).readMsg a.toNat = msgData v := State.readMsg_writeMsg_same s _ _
        _ = v.extractLsb' 0 8 := BitVec.setWidth_eq_extractLsb' (by decide)
    · exact State.readMsg_writeMsg_other s _ hx
  · rw [← or_assoc, ← locked_eq_true] at h
    exact exec_hWrmsg_ignored h

/-! ### Reserved transactions -/

theorem hostTurn_of_error {x : HostTxn} {r : Reject} (hd : decodeHost x = .error r) (s : State) :
    hostTurn x s = .next (reservedTxn x s) := by
  simp only [hostTurn, hd]

/-- The ports that no read selects (30_encoding.md R51). -/
theorem decodeHost_reserved_read {x : HostTxn} (hwe : x.we = false) (hsel : x.hsel = 1 ∨ x.hsel = 3 ∨ 5 ≤ x.hsel.toNat) :
    decodeHost x = .error .hostReserved := by
  obtain h | h | h := hsel
  · simp [decodeHost, hwe, h]
  · simp [decodeHost, hwe, h]
  · exact decodeHost_of_five_le h

/-- The ports that no write selects (R51). -/
theorem decodeHost_reserved_write {x : HostTxn} (hwe : x.we = true) (hsel : x.hsel = 0 ∨ x.hsel = 4 ∨ 5 ≤ x.hsel.toNat) :
    decodeHost x = .error .hostReserved := by
  obtain h | h | h := hsel
  · simp [decodeHost, hwe, h]
  · simp [decodeHost, hwe, h]
  · exact decodeHost_of_five_le h

/-- Settles O8: the pairs listed are those the decoder rejects. -/
theorem reservedTransactionsDoNothing : Obligations.ReservedTransactionsDoNothing := by
  intro s x
  refine ⟨fun hwe hsel => ?_, fun hwe hsel => ?_⟩
  · rw [hostTurn_of_error (decodeHost_reserved_read hwe hsel), reservedTxn, hwe]
    rfl
  · rw [hostTurn_of_error (decodeHost_reserved_write hwe hsel), reservedTxn, hwe]
    rfl

/-! ### What a transaction may change -/

section
variable {s t : State} {x : HostTxn} (hs : HostStep s x t)
include hs

/-- The data path, the fault flags, the digest, the capacity and the queue are written by no transaction (R99). -/
theorem HostStep.frame : t.regs = s.regs ∧ t.h = s.h ∧ t.w = s.w ∧ t.blk = s.blk ∧ t.fault = s.fault ∧
    t.fcode = s.fcode ∧ t.digest = s.digest ∧ t.msgCap = s.msgCap ∧ t.inbox = s.inbox ∧ t.resets = s.resets := by
  cases hs <;> simp

/-- Only a start in an unlocked core touches the run and its flags. -/
theorem HostStep.run_ne (hne : t.busy ≠ s.busy ∨ t.done ≠ s.done ∨ t.lenerr ≠ s.lenerr ∨ t.seq ≠ s.seq) :
    x.we = true ∧ x.hsel = 1 ∧ startBit x.wdata = true ∧ s.busy = false ∧ s.fault = false := by
  cases hs with
  | start hwe hsel hbit hfree | startRefused hwe hsel hbit hfree => exact ⟨hwe, hsel, hbit, locked_eq_false.mp hfree⟩
  | read | ignored | writeLen | writeMsg => simp at hne

theorem HostStep.len_ne (hne : t.len ≠ s.len) : x.we = true ∧ x.hsel = 2 := by
  cases hs with
  | writeLen hwe hsel => exact ⟨hwe, hsel⟩
  | read | ignored | start | startRefused | writeMsg => simp at hne

/-- A byte of `MSG` is written by a write of port 3 at its own address. -/
theorem HostStep.readMsg_ne {a : Nat} (hne : t.readMsg a ≠ s.readMsg a) :
    x.we = true ∧ x.hsel = 3 ∧ a = x.addr.toNat := by
  cases hs with
  | writeMsg hwe hsel => exact ⟨hwe, hsel, of_not_not fun ha => hne (State.readMsg_writeMsg_other s _ ha)⟩
  | read | ignored | start | startRefused | writeLen => simp at hne

theorem HostStep.rdata_of_write (hwe : x.we = true) : t.rdata = s.rdata := by
  cases hs with
  | read _ hread => simp [hread] at hwe
  | ignored | start | startRefused | writeLen | writeMsg => simp

/-- A locked core takes no write (R100). -/
theorem HostStep.eq_of_locked (hwe : x.we = true) (hlock : locked s = true) : t = s := by
  cases hs with
  | read _ hread => simp [hread] at hwe
  | ignored => rfl
  | start _ _ _ hfree | startRefused _ _ _ hfree | writeLen _ _ hfree | writeMsg _ _ hfree => simp [hfree] at hlock

end

/-- Settles O32: one lemma for each column of the table. -/
theorem hostTransactionWriteSets : Obligations.HostTransactionWriteSets := by
  intro x s t h
  have hs := hostStep_of_hostTurn h
  refine ⟨hs.frame, hs.run_ne, hs.len_ne, fun _ => hs.readMsg_ne, fun hwe => ?_, hs.rdata_of_write⟩
  rw [hostTurn_read hwe] at h
  cases h
  rfl

/-! ### Every transaction answers -/

/-- An instruction that some word encodes has a next state: only ill-formed terms are refused (log 11). -/
theorem exec_next_of_wf {i : Instr} (hwf : i.wf = true) (s : State) : ∃ t, exec i s = .next t := by
  cases i with
  | idle => simp only [exec, execIdle]; split <;> exact ⟨_, rfl⟩
  | ldw k => simp only [exec, execLdw, hwf, if_true]; split <;> exact ⟨_, rfl⟩
  | exp k => simp only [exec, execExp, hwf, if_true]; exact ⟨_, rfl⟩
  | rndCh k | rndPara k | rndMaj k | rndParb k => exact ⟨_, exec_round (decodeRound_of_wf (k := k) (by simp) hwf) s⟩
  | acc => exact ⟨_, exec_acc s⟩
  | init | binit | out | hRdstatus | hWrctrl | hRdlen | hWrlen | hWrmsg | hRddigest => exact ⟨_, rfl⟩

/-- No transaction is refused, reserved or not. -/
theorem hostTurn_next (x : HostTxn) (s : State) : ∃ t, hostTurn x s = .next t := by
  obtain ⟨i, hd, he⟩ | ⟨_, _, he⟩ := hostTurn_cases x s <;> rw [he]
  · exact exec_next_of_wf (encode_of_decodeHost hd).1 s
  · exact ⟨_, rfl⟩

theorem hostTurn_locked_write {x : HostTxn} {s : State} (hwe : x.we = true) (hlock : locked s = true) :
    hostTurn x s = .next s := by
  obtain ⟨t, h⟩ := hostTurn_next x s
  rw [h, (hostStep_of_hostTurn h).eq_of_locked hwe hlock]

/-- In a locked core a transaction of either direction can only change `rdata` (R100). -/
theorem hostTurn_locked {s : State} (x : HostTxn) (hlock : locked s = true) : ∃ v, hostTurn x s = .next (s.setRdata v) := by
  cases hwe : x.we with
  | false => exact ⟨_, hostTurn_read hwe s⟩
  | true => exact ⟨s.rdata, hostTurn_locked_write hwe hlock⟩

end Sys2Proof.Machine
end

