-- ==== Sys2Proof/Proofs/CoreSteps.lean ====
section
/-! PROOFS. The sequencer (45_sequencer_and_host.md R98, R106): when the core is given its step, that every step answers but that of a
faulted core with nothing queued (60_exceptions.md R130), and what the steps leave alone. -/

namespace Sys2Proof.Machine

/-- Settles O14: the two branches of `IDLE`. -/
theorem idleResult : Obligations.IdleResult :=
  fun _ => ⟨fun hb => if_neg (Bool.eq_false_iff.mp hb), fun hb => if_pos hb⟩

/-! ### The turn of the core -/

theorem step_of_core {s : State} {rest : List Input} (hq : s.inbox = .core :: rest) : step s = coreTurn (s.setInbox rest) := by
  simp only [step, takeTurn, hq]

/-- Settles O5: the queue gives the core its turn, and the turn is the decoded micro-operation. -/
theorem stepRunsDecodedControlWord : Obligations.StepRunsDecodedControlWord :=
  fun s => ⟨step_of_empty, fun _ => step_of_core, fun _ hb hf hd =>
    ⟨fun hq => (step_of_empty hq hf).trans (coreTurn_of_ok hb hf hd),
      fun rest hq => (step_of_core hq).trans (coreTurn_of_ok (s := s.setInbox rest) hb hf hd)⟩⟩

/-! ### Every turn answers -/

theorem coreTurn_next_exists (s : State) : ∃ t, coreTurn s = .next t := by
  obtain ⟨-, he⟩ | ⟨-, -, he⟩ | ⟨-, -, i, hd, he⟩ | ⟨-, -, r, -, he⟩ := coreTurn_cases s <;> rw [he]
  · exact ⟨_, rfl⟩
  · exact ⟨_, rfl⟩
  · exact exec_next_of_wf (wf_of_decodeSeq hd) s
  · exact ⟨_, rfl⟩

/-- Settles O12: the turn of each agent answers, and the empty queue of a faulted core is the one stop. -/
theorem everyStepAnswersOrIsStuck : Obligations.EveryStepAnswersOrIsStuck := by
  intro s
  refine ⟨fun ⟨hq, hf⟩ => by simp only [step, takeTurn, hq, hf, if_true], fun hlive => ?_⟩
  unfold step
  obtain ⟨hq, hf, -⟩ | ⟨-, -, he⟩ | ⟨rest, -, he⟩ | ⟨x, rest, -, he⟩ | ⟨rest, -, he⟩ := takeTurn_cases s
  · exact absurd ⟨hq, hf⟩ hlive
  · exact he ▸ coreTurn_next_exists s
  · exact he ▸ coreTurn_next_exists _
  · exact he ▸ hostTurn_next x _
  · exact ⟨_, he⟩

/-! ### What a step leaves alone -/

/-- The core never writes the inputs of a run, and a faulted core keeps its fault (R100, R130). -/
theorem coreTurn_inputs {s t : State} (h : coreTurn s = .next t) :
    t.len = s.len ∧ t.readMsg = s.readMsg ∧ (s.fault = true → t.fault = true) := by
  obtain ⟨-, rfl⟩ | ⟨hf, -, i, -, hm⟩ | ⟨-, -, r, -, rfl⟩ := coreTurn_next h
  · exact ⟨rfl, rfl, id⟩
  · obtain ⟨hlen, hmsg, -, -, -, -, hresets, -⟩ := hm.inputs
    exact ⟨hlen, State.readMsg_congr hmsg hresets, by simp [hf]⟩
  · simp

/-- Settles O33: a locked core takes no write, and its own turn writes no input. -/
theorem lockHoldsInputsConstant : Obligations.LockHoldsInputsConstant := by
  intro s hs
  have hlock : locked s = true := locked_eq_true.mpr hs
  refine ⟨fun x hwe => hostTurn_locked_write hwe hlock, fun x _ => hostTurn_locked x hlock, fun t h hnr => ?_⟩
  obtain ⟨-, h⟩ | ⟨x, -, h⟩ | ⟨hr, -⟩ := step_next h
  · obtain ⟨hlen, hmsg, hfault⟩ := coreTurn_inputs h
    exact ⟨hlen, congrFun hmsg, hfault⟩
  · obtain ⟨v, hv⟩ := hostTurn_locked (s := s.setInbox s.inbox.tail) x hlock
    rw [hv] at h
    cases h
    exact ⟨rfl, fun _ => rfl, id⟩
  · exact absurd hr hnr

/-- Settles O35: no transaction writes the accumulator, and of the micro-operations only two do, each with one control word. -/
theorem accumulatorChangesOnlyAtInitAndAcc : Obligations.AccumulatorChangesOnlyAtInitAndAcc := by
  intro s t h hnr hne
  obtain ⟨-, h⟩ | ⟨x, -, h⟩ | ⟨hr, -⟩ := step_next h
  · obtain ⟨-, rfl⟩ | ⟨-, hb, i, he, hm⟩ | ⟨-, -, r, -, rfl⟩ := coreTurn_next h
    · simp at hne
    · obtain rfl | rfl := hm.h_ne hne
      · exact ⟨hb, .inl (Raw.seq.inj he).symm⟩
      · exact ⟨hb, .inr (Raw.seq.inj he).symm⟩
    · simp at hne
  · obtain ⟨-, hh, -⟩ := (hostStep_of_hostTurn h).frame
    exact absurd hh hne
  · exact absurd hr hnr

end Sys2Proof.Machine
end

