-- ==== Sys2Proof/Proofs/StartedRun.lean ====
section
/-! PROOFS. What the host sees of a run (45_sequencer_and_host.md R113 to R116, R123): the trace of a started core, the status word on
the way and at the end, the digest, and that no transaction between the core's steps changes any of it. -/

namespace Sys2Proof.Machine

/-! ### A run cut in two -/

section
variable {s t u : State} {i : Instr} {is js : List Instr}

theorem CoreRun.busy_of_ne_nil (h : CoreRun is s u) (hne : is ≠ []) : s.busy = true := by
  cases h with
  | nil => exact absurd rfl hne
  | cons hb => exact hb

/-- Until its end a run is that of a busy core. -/
theorem CoreRun.busy_of_busy (h : CoreRun is s u) (hu : u.busy = true) : s.busy = true := by
  cases h with
  | nil => exact hu
  | cons hb => exact hb

theorem CoreRun.exists_of_append (h : CoreRun (is ++ js) s u) : ∃ t, CoreRun is s t ∧ CoreRun js t u := by
  induction is generalizing s with
  | nil => exact ⟨s, .nil s, h⟩
  | cons i is ih =>
    cases h with
    | cons hb hf hd hexec hrest =>
      obtain ⟨t, hfst, hsnd⟩ := ih hrest
      exact ⟨t, .cons hb hf hd hexec hfst, hsnd⟩

/-- The trace of the core is the run it performs. -/
theorem CoreRun.coreTrace_eq (h : CoreRun is s u) : coreTrace is.length s = is := by
  induction h with
  | nil => rfl
  | cons hb hf hd hexec _ ih => simp only [List.length_cons, coreTrace, hd, (coreTurn_of_ok hb hf hd).trans hexec, ih]

/-! ### The status word -/

/-- A micro-operation that leaves the core busy has not touched the status (10_state.md R21). -/
theorem MicroStep.statusWord_of_busy (hm : MicroStep s i t) (hb : t.busy = true) :
    statusWord t = statusWord s := by
  cases hm with
  | idleFault | ldwFault | out => cases hb
  | idle | init | ldw | ldwLast | exp | expLast | binit | rnd | rndLast | acc | accLast => rfl

/-- While a run goes on the host reads one status (R123). -/
theorem CoreRun.statusWord_of_busy (h : CoreRun is s u) (hu : u.busy = true) : statusWord u = statusWord s := by
  induction h with
  | nil => rfl
  | cons _ _ hd hexec hrest ih =>
    have hm := microStep_of_exec (encode_of_decodeSeq hd) hexec
    exact (ih hu).trans (hm.statusWord_of_busy (hrest.busy_of_busy hu))

end

/-! ### The other agent between the steps -/

/-- The state with other turns to come and other data read: the two fields that a transaction in a locked core may change. -/
def State.setPorts (s : State) (q : List Input) (v : BitVec 64) : State := (s.setInbox q).setRdata v

/-- The next state that `MicroStep` lists is the one the instruction gives. -/
theorem MicroStep.exec_eq {s t : State} {i : Instr} (hm : MicroStep s i t) : exec i s = .next t := by
  cases hm with
  | idle hb | idleFault hb => simp [exec, execIdle, hb]
  | ldw hk hv | ldwLast hk hv => simp [exec, execLdw, Instr.wf, hv, State.afterLdw, hk, Nat.le_of_lt, Nat.ne_of_lt]
  | ldwFault hk hv => simp [exec, execLdw, Instr.wf, hk, hv]
  | exp hlo hhi => simp [exec, execExp, Instr.wf, hlo, hhi.le, State.afterExp, hhi.ne]
  | expLast hk => simp [exec, execExp, Instr.wf, State.afterExp, hk]
  | rnd hi hk => rw [exec_round hi, State.afterRound, if_neg hk.ne]
  | rndLast hi hk => rw [exec_round hi, State.afterRound, if_pos hk]
  | acc hblk => exact exec_acc_more hblk
  | accLast hblk => exact exec_acc_last hblk
  | init | binit | out => rfl

/-- No micro-operation reads or writes the ports of the host. -/
theorem MicroStep.setPorts {s t : State} {i : Instr} (hm : MicroStep s i t) (q : List Input) (v : BitVec 64) :
    MicroStep (s.setPorts q v) i (t.setPorts q v) := by
  cases hm with
  | idle hb => exact .idle hb
  | idleFault hb => exact .idleFault hb
  | init => exact .init
  | ldw hk hv => exact .ldw hk hv
  | ldwLast hk hv => exact .ldwLast hk hv
  | ldwFault hk hv => exact .ldwFault hk hv
  | exp hlo hhi => exact .exp hlo hhi
  | expLast hk => exact .expLast hk
  | binit => exact .binit
  | rnd hi hk => exact .rnd hi hk
  | rndLast hi hk => exact .rndLast hi hk
  | acc hblk => exact .acc hblk
  | accLast hblk => exact .accLast hblk
  | out => exact .out

/-- A queued turn of the core in a run is the next micro-operation of that run, whatever the host has read. -/
theorem step_setPorts_core {s t : State} {i : Instr} (hb : s.busy = true) (hf : s.fault = false) (hd : decodeSeq s.seq = .ok i)
    (hexec : exec i s = .next t) (q : List Input) (v : BitVec 64) :
    step (s.setPorts (.core :: q) v) = .next (t.setPorts q v) :=
  calc step (s.setPorts (.core :: q) v) = coreTurn (s.setPorts q v) := step_of_core rfl
    _ = exec i (s.setPorts q v) := coreTurn_of_ok (s := s.setPorts q v) hb hf hd
    _ = .next (t.setPorts q v) := ((microStep_of_exec (encode_of_decodeSeq hd) hexec).setPorts q v).exec_eq

/-- A queued transaction in a busy core changes the data read at most (R100). -/
theorem step_setPorts_host {s : State} (hb : s.busy = true) (x : HostTxn) (q : List Input) (v : BitVec 64) :
    ∃ v', step (s.setPorts (.host x :: q) v) = .next (s.setPorts q v') := by
  obtain ⟨v', hv⟩ := hostTurn_locked (s := s.setPorts q v) x (locked_eq_true.mpr (.inl hb))
  exact ⟨v', (step_of_host rfl).trans hv⟩

/-- A run in which the core has the last turn takes no notice of the transactions queued among its turns: until then it is busy. -/
theorem CoreRun.runSteps_interleaved {is : List Instr} {s u : State} {pre : List Input} (h : CoreRun is s u)
    (hreset : .reset ∉ pre) (hcount : is.length = pre.count .core + 1) (v : BitVec 64) :
    ∃ v', Sys2Proof.Machine.runSteps (pre.length + 1) (s.setPorts (pre ++ [.core]) v) = .next (u.setPorts [] v') := by
  induction pre generalizing s is v with
  | nil =>
    cases h with
    | nil => cases hcount
    | cons hb hf hd hexec hrest =>
      obtain rfl := List.length_eq_zero_iff.mp (Nat.succ.inj hcount)
      cases hrest
      exact ⟨v, runSteps_succ (step_setPorts_core hb hf hd hexec [] v) 0⟩
  | cons x pre ih =>
    obtain ⟨hx, hpre⟩ := List.ne_and_not_mem_of_not_mem_cons hreset
    cases x with
    | reset => exact absurd rfl hx
    | host x =>
      have hb : s.busy = true := h.busy_of_ne_nil (List.ne_nil_of_length_eq_add_one hcount)
      obtain ⟨v₁, hstep⟩ := step_setPorts_host hb x (pre ++ [.core]) v
      obtain ⟨v₂, hsteps⟩ := ih h hpre (by simpa using hcount) v₁
      exact ⟨v₂, (runSteps_succ hstep _).trans hsteps⟩
    | core =>
      rw [List.count_cons_self] at hcount
      cases h with
      | nil => cases hcount
      | cons hb hf hd hexec hrest =>
        obtain ⟨v₁, hsteps⟩ := ih hrest hpre (Nat.succ.inj hcount) v
        exact ⟨v₁, (runSteps_succ (step_setPorts_core hb hf hd hexec _ v) _).trans hsteps⟩

/-! ### From the start -/

/-- Whatever turns follow it, an accepted start is the step that begins the run. -/
theorem step_start_cons {s : State} (hb : s.busy = false) (hf : s.fault = false) (hlen : lenAccepted s = true) (q : List Input) :
    step { s with inbox := .host hostStart :: q } = .next (s.clearResult.beginRun.setPorts q s.rdata) := by
  rw [step_of_host rfl, hostTurn_of_ok (i := .hWrctrl 1) rfl]
  exact exec_start (s := s.setInbox q) hb hf hlen

/-- The core performs `HASH` from an accepted start (R113). -/
theorem coreRun_start {s : State} (hf : s.fault = false) :
    ∃ r w, CoreRun (pseudoHash s.len.toNat) s.clearResult.beginRun (s.clearResult.beginRun.afterHash r w) :=
  coreRun_pseudoHash (s := s.clearResult.beginRun) rfl hf rfl

/-- Settles O53: the started core performs `HASH`, and the trace is what it performs. -/
theorem acceptedStartCausesHashTrace : Obligations.AcceptedStartCausesHashTrace := by
  intro s t hb hf hlen h
  rw [exec_start hb hf hlen] at h
  cases h
  obtain ⟨r, w, hrun⟩ := coreRun_start hf
  rw [← length_pseudoHash]
  exact hrun.coreTrace_eq

/-- Settles O55: the run of an accepted start (`runSteps_start`). -/
theorem runComputesSha1 : Obligations.RunComputesSha1 :=
  fun _ => runSteps_start

section
variable {s : State} (hf : s.fault = false) (hcode : s.fcode = 0)
include hf hcode

theorem statusWord_started : statusWord s.clearResult.beginRun = 0x01 := by
  simp [statusWord, hf, hcode]

theorem statusWord_afterHash (hlenerr : s.lenerr = false) (r : Working) (w : Vector Word 80) :
    statusWord (s.afterHash r w) = 0x02 := by
  simp [statusWord, State.afterHash, State.afterBlocks, hf, hcode, hlenerr]

end

/-- Settles O54: after a part of the run the core is at the first micro-operation of the rest, so it is busy still. -/
theorem busyUntilExactlyTheStepCount : Obligations.BusyUntilExactlyTheStepCount := by
  intro s hb hf hcode hlen
  obtain ⟨r, w, hrun⟩ := coreRun_start (s := s.setInbox []) hf
  have hstart := runSteps_succ (step_start hb hf hlen)
  have hlength : (pseudoHash (s.setInbox []).len.toNat).length = 162 * nblk s.len.toNat + 2 := length_pseudoHash _
  refine ⟨fun k hk => ?_, ?_⟩
  · rw [← hlength] at hk
    rw [← List.take_append_drop k (pseudoHash _)] at hrun
    obtain ⟨t, hfst, hrest⟩ := hrun.exists_of_append
    have hbt : t.busy = true := hrest.busy_of_ne_nil (List.drop_eq_nil_iff.not.mpr hk.not_ge)
    have hsteps := hfst.runSteps rfl
    rw [List.length_take_of_le hk.le] at hsteps
    exact ⟨t, (hstart k).trans hsteps, (hfst.statusWord_of_busy hbt).trans (statusWord_started hf hcode)⟩
  · have hsteps := hrun.runSteps rfl
    rw [hlength] at hsteps
    exact ⟨_, (hstart _).trans hsteps, statusWord_afterHash (s := (s.setInbox []).clearResult.beginRun) hf hcode rfl r w⟩

/-- Settles O56: the run is the same whatever is queued among its turns, and it writes neither `LEN` nor `MSG`. -/
theorem hostCannotDisturbARun : Obligations.HostCannotDisturbARun := by
  intro s pre hb hf hlen hreset hcount
  obtain ⟨r, w, hrun⟩ := coreRun_start hf
  obtain ⟨v, hsteps⟩ := hrun.runSteps_interleaved hreset (by rw [length_pseudoHash, hcount]) s.rdata
  exact ⟨_, (runSteps_succ (step_start_cons hb hf hlen _) _).trans hsteps, rfl, rfl, hf, rfl, rfl, fun _ => rfl⟩

end Sys2Proof.Machine
end

