-- ==== Sys2Proof/Proofs/Exceptions.lean ====
section
/-! PROOFS. The two rules of the fault as a whole: the faulted state is left by reset alone (60_exceptions.md R130), and it is not
reached from reset (R131). For the second, a state of the invariant of R35 takes every step, so the invariant holds along every run,
and it leaves four values for the status word. -/

namespace Sys2Proof.Machine

/-! ### The faulted state -/

theorem coreTurn_of_fault {s : State} (hf : s.fault = true) : coreTurn s = .next s := if_pos hf

theorem step_of_reset {s : State} {rest : List Input} (hq : s.inbox = .reset :: rest) :
    step s = .next (applyReset (s.setInbox rest)) := by
  simp only [step, takeTurn, hq]

/-- Settles O11: the core has no step, the lock leaves the host `rdata` alone, and the reset state has no fault. -/
theorem faultIsStickyUntilReset : Obligations.FaultIsStickyUntilReset := by
  intro s x rest hf hq
  cases x with
  | core => exact ⟨fun _ => ⟨s.rdata, (step_of_core hq).trans (coreTurn_of_fault hf)⟩, nofun⟩
  | host x =>
    obtain ⟨v, hv⟩ := hostTurn_locked (s := s.setInbox rest) x (locked_eq_true.mpr (.inr hf))
    exact ⟨fun _ => ⟨v, (step_of_host hq).trans hv⟩, nofun⟩
  | reset => exact ⟨fun hx => absurd rfl hx, fun _ => ⟨_, step_of_reset hq, rfl, rfl⟩⟩

/-! ### The runs from reset -/

section
variable {s : State} (hs : Inv s)
include hs

/-- With no fault there is no stop, and the step keeps the invariant. -/
theorem Inv.exists_step : ∃ t, step s = .next t ∧ Inv t := by
  obtain ⟨t, h⟩ := (everyStepAnswersOrIsStuck s).2 (by simp [hs.noFault])
  exact ⟨t, h, stepKeepsInvariant s t hs h⟩

theorem Inv.exists_runSteps (n : Nat) : ∃ t, runSteps n s = .next t ∧ Inv t := by
  induction n generalizing s with
  | zero => exact ⟨s, rfl, hs⟩
  | succ n ih =>
    obtain ⟨t, hstep, ht⟩ := hs.exists_step
    rw [runSteps_succ hstep]
    exact ih ht

theorem Inv.of_runSteps {n : Nat} {t : State} (h : runSteps n s = .next t) : Inv t := by
  obtain ⟨t', h', ht'⟩ := hs.exists_runSteps n
  rw [h] at h'
  cases h'
  exact ht'

theorem Inv.safe : Safe s := fun n => by
  obtain ⟨t, h, ht⟩ := hs.exists_runSteps n
  exact ⟨t, h, ht.noFault.1⟩

/-- Of `BUSY`, `DONE` and `LENERR` at most one is set, and nothing else of the status word is (30_encoding.md R50). -/
theorem Inv.statusWord_cases :
    statusWord s = 0x00 ∨ statusWord s = 0x01 ∨ statusWord s = 0x02 ∨ statusWord s = 0x08 := by
  obtain ⟨hfault, hfcode⟩ := hs.noFault
  cases hlenerr : s.lenerr with
  | true =>
    obtain ⟨hbusy, hdone⟩ := hs.lenErr hlenerr
    simp [statusWord, hfcode, hlenerr, hfault, hdone, hbusy]
  | false =>
    cases hbusy : s.busy with
    | true =>
      have hdone : s.done = false := by simpa [hbusy] using hs.notBoth
      simp [statusWord, hfcode, hlenerr, hfault, hdone, hbusy]
    | false => cases hdone : s.done <;> simp [statusWord, hfcode, hlenerr, hfault, hdone, hbusy]

end

/-- Settles O41: the reset state meets the invariant whatever is queued, and so does every state after it. -/
theorem noFaultIsReachableFromReset : Obligations.NoFaultIsReachableFromReset := by
  intro cap q
  have hs := resetMeetsInvariant cap q
  exact ⟨hs.safe, fun _ _ h => (hs.of_runSteps h).statusWord_cases⟩

end Sys2Proof.Machine
end

section
/-! PROOFS. The reset event (70_reset_and_hazards.md R141): it leaves the values that 10_state.md R33 gives, from every state. -/

namespace Sys2Proof.Machine

/-- Settles O10: the step is `applyReset`, whose core is the reset state at the same capacity, so O9 gives its values. -/
theorem resetInputGivesResetState : Obligations.ResetInputGivesResetState := by
  intro s rest hq
  obtain ⟨_, rfl, hseq, hblk, hbusy, hdone, hfault, hlenerr, hfcode, hlen, hcap, hmsg⟩ := resetStateValues.2 s.msgCap
  exact ⟨applyReset (s.setInbox rest), step_of_reset hq,
    hseq, hblk, hbusy, hdone, hfault, hlenerr, hfcode, hlen, hmsg, hcap, rfl, rfl⟩

end Sys2Proof.Machine
end
